-- ==== Sys2Proof/Word.lean ====
section
/-! DEFINITION. The byte, the 16-bit word and the byte sequence of 00_scope.md R9. -/

namespace Sys2Proof

/-- A byte, the `u8` of R9. -/
abbrev Byte := BitVec 8

/-- A `u16` of R9. -/
abbrev Word := BitVec 16

/-- A finite sequence of bytes, `Bytes` of R9, oldest first. -/
abbrev Bytes := List Byte

end Sys2Proof
end

