-- ==== Sys2Proof/Config.lean ====
section
/-! DEFINITION. The message family and the build-time configuration (00_scope.md R7, 10_state.md R20): what the
codec reads of it, and what each Reader reads; then the test configurations 95_test_vectors.md names. Which are
well formed (R8) is decided in WellFormed.lean. -/

namespace Sys2Proof

/-- `FAMILY` of R7 and R12: Command is host to device, Report is device to host. -/
inductive Family where
  | command
  | report
deriving DecidableEq, Repr

/-- What DECODE and ENCODE read of the configuration (10_state.md R20). The spec leaves the values open (D5, D7). -/
structure Codec where
  /-- `DEBUG_MAX_LEN`, the greatest payload length of a Debug report, and the bound in its type (R31). -/
  debugMaxLen : Nat
  /-- `BOOTLOAD_TAG`, the tag of Bootload, or none. -/
  bootloadTag : Option Byte
deriving DecidableEq, Repr

/-- What the Reader of one direction reads of the configuration (10_state.md R20). The spec leaves the values open
(D4, D6). -/
structure Sizes where
  /-- `CAP`, the byte capacity of the Reader's buffer. -/
  cap : Nat
  /-- `OUTQ_CAP`, the greatest number of messages one FEED returns. -/
  outqCap : Nat
deriving DecidableEq, Repr

/-- The configuration a machine is built with, R7: the parameters of the step relation, no part of the state
(10_state.md R20; log 4). `FAMILY` is which of the two Readers it is. -/
structure Params where
  codec : Codec
  /-- Of the Command direction's Reader. -/
  cmd : Sizes
  /-- Of the Report direction's Reader. -/
  rep : Sizes
deriving DecidableEq, Repr

/-- The sizes of the Reader of `F`. -/
def Params.sizes (p : Params) : Family → Sizes
  | .command => p.cmd
  | .report => p.rep

/-! The test configurations: `TC` of R7 and D31, the spec's own choice and no claim about the firmware, and the others
of 95_test_vectors.md. -/

def Codec.tc : Codec := { debugMaxLen := 254, bootloadTag := none }

/-- `TC` in both directions. -/
def Params.tc : Params :=
  { codec := Codec.tc, cmd := { cap := 256, outqCap := 4 }, rep := { cap := 256, outqCap := 4 } }

/-- `TB`: `TC` with the hypothetical Bootload tag 0xF0. -/
def Codec.tb : Codec := { debugMaxLen := 254, bootloadTag := some 0xF0 }
def Params.tb : Params := { Params.tc with codec := Codec.tb }

/-- `TD`: `CAP` 257 and `DEBUG_MAX_LEN` 255. -/
def Codec.td : Codec := { debugMaxLen := 255, bootloadTag := none }
def Params.td : Params :=
  { codec := Codec.td, cmd := { cap := 257, outqCap := 4 }, rep := { cap := 257, outqCap := 4 } }

/-- `T5`: `CAP` 5, for the Command Reader only. -/
def Params.t5 : Params := { Params.tc with cmd := { cap := 5, outqCap := 4 } }

end Sys2Proof
end

