-- ==== Sys2Proof/Machine/Operands.lean ====
section
/-! DEFINITION. The operand forms: how each kind of field is assembled from bytes and written as bytes
(00_scope.md R10, 30_encoding.md R66 to R71), the validity test of a Debug payload (42_report_messages.md
R149), the checks on configurations (00_scope.md R8), and the parameters of the machine that the host's interface
runs. -/

namespace Sys2Proof.Machine

/-- `s[i]` of R9. The rules read it only at an index below `|s|`; the 0 elsewhere is never read. -/
def byteAt (s : Bytes) (i : Nat) : Byte := s.getD i 0

/-- `MemRead(i, n)` of R11, the bytes `s[i..i+n)`. -/
def memRead (s : Bytes) (i n : Nat) : Bytes := (s.drop i).take n

/-- `be16(hi, lo)` of R10: most significant byte first (R41, R67). -/
def be16 (hi lo : Byte) : Word := BitVec.ofNat 16 (hi.toNat * 256 + lo.toNat)

/-- The `u16` field whose first byte stands at index `k` of a frame (R67). -/
def wordAt (s : Bytes) (k : Nat) : Word := be16 (byteAt s k) (byteAt s (k + 1))

/-- `v[15:8]`, the byte a `u16` field writes first (R67). -/
def hiByte (v : Word) : Byte := BitVec.ofNat 8 (v.toNat / 256)

/-- `v[7:0]`, the byte a `u16` field writes second (R67). -/
def loByte (v : Word) : Byte := BitVec.ofNat 8 (v.toNat % 256)

/-- `sext_8(b)` of R10: the two's-complement reading of a byte (R68). -/
def sext8 (b : Byte) : Int := if b.toNat < 128 then (b.toNat : Int) else (b.toNat : Int) - 256

/-- `bits8(d)` of R10: the byte of an `i8` value (R68). -/
def bits8 (d : Int) : Byte := BitVec.ofInt 8 (if 0 ≤ d then d else d + 256)

/-- The range of `i8` (R9). -/
def isI8 (d : Int) : Bool := decide (-128 ≤ d) && decide (d ≤ 127)

/-- `bool_of(b)` of R10: every nonzero byte reads as true (R69). -/
def boolOf (b : Byte) : Bool := b != 0

/-- The byte a bool is written as: 0x01 or 0x00 (R69, the spec's decision D8; log 14). -/
def boolByte (v : Bool) : Byte := if v then 0x01 else 0x00

/-- The length byte of a Debug frame (R71): the payload's byte count. -/
def lenByte (p : Bytes) : Byte := BitVec.ofNat 8 p.length

/-- `lo <= b <= hi`, on unsigned bytes. -/
def inRange (lo hi b : Byte) : Bool := decide (lo.toNat ≤ b.toNat) && decide (b.toNat ≤ hi.toNat)

/-- The lead-byte table of R149, for a byte above 0x7F: how many bytes the character has, and the
range of its second byte. None for 0x80 to 0xC1 and 0xF5 to 0xFF. -/
def utf8Lead (b : Byte) : Option (Nat × Byte × Byte) :=
  if inRange 0xC2 0xDF b then some (2, 0x80, 0xBF)
  else if inRange 0xE0 0xE0 b then some (3, 0xA0, 0xBF)
  else if inRange 0xE1 0xEC b then some (3, 0x80, 0xBF)
  else if inRange 0xED 0xED b then some (3, 0x80, 0x9F)
  else if inRange 0xEE 0xEF b then some (3, 0x80, 0xBF)
  else if inRange 0xF0 0xF0 b then some (4, 0x90, 0xBF)
  else if inRange 0xF1 0xF3 b then some (4, 0x80, 0xBF)
  else if inRange 0xF4 0xF4 b then some (4, 0x80, 0x8F)
  else none

/-- `utf8_valid(p)` of R149: one character at a time from the front; a character whose bytes the
payload does not hold whole makes it invalid. -/
def utf8Valid : Bytes → Bool
  | [] => true
  | b :: rest =>
    if b.toNat ≤ 0x7F then utf8Valid rest
    else
      match utf8Lead b, rest with
      | some (2, lo, hi), c1 :: r => inRange lo hi c1 && utf8Valid r
      | some (3, lo, hi), c1 :: c2 :: r => inRange lo hi c1 && inRange 0x80 0xBF c2 && utf8Valid r
      | some (4, lo, hi), c1 :: c2 :: c3 :: r =>
        inRange lo hi c1 && inRange 0x80 0xBF c2 && inRange 0x80 0xBF c3 && utf8Valid r
      | _, _ => false

/-- `MAX_WIRE(F)` of R8, the largest wire size of a message of the family. -/
def maxWire (cfg : Codec) : Family → Nat
  | .command => 5
  | .report => max 3 (2 + cfg.debugMaxLen)

/-- R8, first clause: the buffer holds a message of any size. -/
def capOk (F : Family) (p : Params) : Bool := decide (maxWire p.codec F ≤ (p.sizes F).cap)

/-- R8, second clause: the Debug maximum fits the length byte. -/
def debugMaxLenOk (cfg : Codec) : Bool := decide (cfg.debugMaxLen ≤ 255)

/-- R8, third clause: a FEED can return a message. -/
def outqCapOk (z : Sizes) : Bool := decide (1 ≤ z.outqCap)

/-- R8, fourth clause: the Bootload tag overlaps no other Command tag (R63). -/
def bootloadTagOk (cfg : Codec) : Bool :=
  match cfg.bootloadTag with
  | none => true
  | some t => t != 0x41 && t != 0x42 && t != 0x43 && t != 0x44

/-- The parameters of the machine that the host's interface runs: `TC` in both directions. The spec leaves them
open, and `TC` is the only configuration it writes out in a rule (R7, D31; log 5, DESIGN CHOICE, unsafe). -/
abbrev built : Params := Params.tc

end Sys2Proof.Machine
end

