-- ==== Sys2Proof/Syntax.lean ====
section
/-! DEFINITION. The instructions: one constructor per row of spec/opcode_table.json. An instruction is
a message of one of the two families (10_state.md R29, R30), and its words are the message's frame.
There is no Release (42_report_messages.md R147). -/

namespace Sys2Proof

/-- `DebugStr` of 10_state.md R31: the raw bytes paired with a proof of both conditions. A byte string that breaks
one of them is no value of this type. -/
structure DebugStr (debugMaxLen : Nat) where
  /-- The UTF-8 bytes. -/
  bytes : Bytes
  /-- `|p| <= DEBUG_MAX_LEN`; the length counts bytes, not characters. -/
  fits : bytes.length ≤ debugMaxLen
  /-- `utf8_valid(p)`, R149. -/
  valid : Machine.utf8Valid bytes = true
deriving DecidableEq, Repr

/-- A Command or Report message value of a build with this `DEBUG_MAX_LEN`, R29 and R30. Instr with no number
beside it is a message of the machine that the host's interface runs (log 5). -/
inductive Instr (debugMaxLen : Nat := Machine.built.codec.debugMaxLen) where
  /-- cmd.PowerCycler, R110. -/
  | powerCycler (slot : Byte) (state : Bool)
  /-- cmd.Brightness, R111. -/
  | brightness (target : Byte) (value : Word)
  /-- cmd.Temperature, R112. -/
  | temperature (target : Byte) (value : Word)
  /-- cmd.Led, R113; `pulse` is a raw byte (R70). -/
  | led (r g b pulse : Byte)
  /-- cmd.Bootload, R114; it exists only where `BOOTLOAD_TAG` is set. -/
  | bootload
  /-- rep.Heartbeat, R140. -/
  | heartbeat
  /-- rep.DialValue, R141; `diff` is an `i8`, an integer from -128 to 127 (R9). -/
  | dialValue (diff : Int)
  /-- rep.Press, R142. -/
  | press
  /-- rep.LongPress, R143, also named Click. -/
  | longPress
  /-- rep.EmergencyOff, R144. -/
  | emergencyOff
  /-- rep.Error, R145. -/
  | error (code : Word)
  /-- rep.Debug, R146. -/
  | debug (message : DebugStr debugMaxLen)
deriving DecidableEq, Repr

end Sys2Proof
end

