-- ==== Sys2Proof/WellFormed.lean ====
section
/-! DEFINITION. Well-formed configurations (00_scope.md R8) and the messages of a configuration (10_state.md R29
to R31, 40_codec.md R100). That a Debug payload is a `DebugStr` is in its type; the range of an `i8`, and what
depends on the configuration, are checked here (log 29). -/

namespace Sys2Proof

/-- The clauses of R8 about what DECODE and ENCODE read. -/
def Codec.wellFormed (cfg : Codec) : Bool := Machine.debugMaxLenOk cfg && Machine.bootloadTagOk cfg

/-- A configuration that the Reader of `F` may have, R8. -/
def Params.wellFormed (p : Params) (F : Family) : Bool :=
  Machine.capOk F p && Machine.outqCapOk (p.sizes F) && p.codec.wellFormed

/-- What R29 and R30 ask of a message value under every configuration and its type does not say: a `diff` in the
range of `i8` (R9). -/
def Instr.wellFormed {n : Nat} : Instr n → Bool
  | .powerCycler _ _ => true
  | .brightness _ _ => true
  | .temperature _ _ => true
  | .led _ _ _ _ => true
  | .bootload => true
  | .heartbeat => true
  | .dialValue diff => Machine.isI8 diff
  | .press => true
  | .longPress => true
  | .emergencyOff => true
  | .error _ => true
  | .debug _ => true

/-- A message value that can be constructed under `cfg` (R29, R30, R100): a `diff` in the range of `i8`, a
Bootload only where it has a tag. A Debug message always can: its two conditions are in its type (R31). -/
def Instr.constructible (cfg : Codec) : Instr cfg.debugMaxLen → Bool
  | .powerCycler _ _ => true
  | .brightness _ _ => true
  | .temperature _ _ => true
  | .led _ _ _ _ => true
  | .bootload => cfg.bootloadTag.isSome
  | .heartbeat => true
  | .dialValue diff => Machine.isI8 diff
  | .press => true
  | .longPress => true
  | .emergencyOff => true
  | .error _ => true
  | .debug _ => true

end Sys2Proof
end

