-- ==== Sys2Proof/Decode.lean ====
section
/-! DEFINITION. DECODE with its tag dispatch, and ENCODE (40_codec.md R90 to R100), from the tag
alphabets and frame formats of 30_encoding.md; then the reading of a word numbered as
spec/opcode_table.json numbers its bits. -/

namespace Sys2Proof

/-- The variants with a frame of one size, by the names of R61 and R62. -/
inductive FixedVariant where
  | powerCycler | brightness | temperature | led | bootload
  | heartbeat | dialValue | press | longPress | emergencyOff | error
deriving DecidableEq, Repr

/-- The variants: those of one size, and Debug. -/
inductive Variant where
  | fixed (v : FixedVariant)
  | debug
deriving DecidableEq, Repr

/-- What the tag dispatch selects (R92). -/
inductive FrameClass where
  /-- A frame of `n` bytes of the variant `v`. -/
  | fixed (n : Nat) (v : FixedVariant)
  /-- The Debug frame, whose length byte follows the tag. -/
  | lengthPrefixed
  /-- Not a tag of the family. -/
  | none
deriving DecidableEq, Repr

/-- Why bytes are Malformed (R33, R90). -/
inductive Reason where
  | badTag | badLength | badUtf8
deriving DecidableEq, Repr

/-- The three outcomes of DECODE (R33, R90). -/
inductive DecodeOutcome (debugMaxLen : Nat) where
  /-- Wait for more input. -/
  | incomplete
  /-- The first `n` bytes are the frame of `m`. -/
  | decoded (m : Instr debugMaxLen) (n : Nat)
  /-- The bytes at the front begin no valid message. -/
  | malformed (r : Reason)
deriving DecidableEq, Repr

/-- The family a message belongs to (R29, R30). -/
def Instr.family {n : Nat} : Instr n → Family
  | .powerCycler _ _ => .command
  | .brightness _ _ => .command
  | .temperature _ _ => .command
  | .led _ _ _ _ => .command
  | .bootload => .command
  | .heartbeat => .report
  | .dialValue _ => .report
  | .press => .report
  | .longPress => .report
  | .emergencyOff => .report
  | .error _ => .report
  | .debug _ => .report

/-- The variant of a message. -/
def Instr.variant {n : Nat} : Instr n → Variant
  | .powerCycler _ _ => .fixed .powerCycler
  | .brightness _ _ => .fixed .brightness
  | .temperature _ _ => .fixed .temperature
  | .led _ _ _ _ => .fixed .led
  | .bootload => .fixed .bootload
  | .heartbeat => .fixed .heartbeat
  | .dialValue _ => .fixed .dialValue
  | .press => .fixed .press
  | .longPress => .fixed .longPress
  | .emergencyOff => .fixed .emergencyOff
  | .error _ => .fixed .error
  | .debug _ => .debug

/-- `wire_size(m)` of R12, from the frame sizes of R64 and R65. -/
def Instr.wireSize {n : Nat} : Instr n → Nat
  | .powerCycler _ _ => 3
  | .brightness _ _ => 4
  | .temperature _ _ => 4
  | .led _ _ _ _ => 5
  | .bootload => 1
  | .heartbeat => 1
  | .dialValue _ => 2
  | .press => 1
  | .longPress => 1
  | .emergencyOff => 1
  | .error _ => 3
  | .debug message => 2 + message.bytes.length

/-- `lookup(F, t)` of R92: the tag alphabets of R61 and R62, whose letters are ASCII (log 20, UNVERIFIED). -/
def lookup (cfg : Codec) : Family → Byte → FrameClass
  | .command, t =>
    if t = 0x41 then .fixed 3 .powerCycler
    else if t = 0x42 then .fixed 4 .brightness
    else if t = 0x43 then .fixed 4 .temperature
    else if t = 0x44 then .fixed 5 .led
    else if cfg.bootloadTag = some t then .fixed 1 .bootload
    else .none
  | .report, t =>
    if t = 0x48 then .fixed 1 .heartbeat
    else if t = 0x56 then .fixed 2 .dialValue
    else if t = 0x50 then .fixed 1 .press
    else if t = 0x4C then .fixed 1 .longPress
    else if t = 0x58 then .fixed 1 .emergencyOff
    else if t = 0x45 then .fixed 3 .error
    else if t = 0x44 then .lengthPrefixed
    else .none

/-- `build_V(s)` of R110 to R114 and R140 to R145, where `s` holds the bytes of a whole frame of the
variant, tag first. -/
def build {n : Nat} (v : FixedVariant) (s : Bytes) : Instr n :=
  match v with
  | .powerCycler => .powerCycler (Machine.byteAt s 1) (Machine.boolOf (Machine.byteAt s 2))
  | .brightness => .brightness (Machine.byteAt s 1) (Machine.wordAt s 2)
  | .temperature => .temperature (Machine.byteAt s 1) (Machine.wordAt s 2)
  | .led => .led (Machine.byteAt s 1) (Machine.byteAt s 2) (Machine.byteAt s 3) (Machine.byteAt s 4)
  | .bootload => .bootload
  | .heartbeat => .heartbeat
  | .dialValue => .dialValue (Machine.sext8 (Machine.byteAt s 1))
  | .press => .press
  | .longPress => .longPress
  | .emergencyOff => .emergencyOff
  | .error => .error (Machine.wordAt s 1)

/-- The `DebugStr` of the bytes `p` (R31); none where they break one of its two conditions. -/
def DebugStr.ofBytes (debugMaxLen : Nat) (p : Bytes) : Option (DebugStr debugMaxLen) :=
  if h : p.length ≤ debugMaxLen ∧ Machine.utf8Valid p = true then
    some { bytes := p, fits := h.1, valid := h.2 }
  else none

/-- The FIXED clause of R91. -/
def decodeFixed {debugMaxLen : Nat} (n : Nat) (v : FixedVariant) (s : Bytes) : DecodeOutcome debugMaxLen :=
  if s.length < n then .incomplete else .decoded (build v (s.take n)) n

/-- The LENGTH_PREFIXED clause of R91, in the order of R146 and R229. The payload that reaches the last test is
no longer than `DEBUG_MAX_LEN`, so it is a `DebugStr` exactly where it is valid UTF-8. -/
def decodeDebug (cfg : Codec) (s : Bytes) : DecodeOutcome cfg.debugMaxLen :=
  if s.length < 2 then .incomplete
  else
    let len := (Machine.byteAt s 1).toNat
    if cfg.debugMaxLen < len then .malformed .badLength
    else if s.length < 2 + len then .incomplete
    else
      match DebugStr.ofBytes cfg.debugMaxLen (Machine.memRead s 2 len) with
      | some message => .decoded (.debug message) (2 + len)
      | none => .malformed .badUtf8

/-- DECODE(F, s) of R91. -/
def decode (cfg : Codec) (F : Family) (s : Bytes) : DecodeOutcome cfg.debugMaxLen :=
  if s.length = 0 then .incomplete
  else
    match lookup cfg F (Machine.byteAt s 0) with
    | .none => .malformed .badTag
    | .fixed n v => decodeFixed n v s
    | .lengthPrefixed => decodeDebug cfg s

/-- ENCODE(m) of R98. A value that is not constructible is refused before this is asked (R100). -/
def encode (cfg : Codec) : Instr cfg.debugMaxLen → Bytes
  | .powerCycler slot state => [0x41, slot, Machine.boolByte state]
  | .brightness target value => [0x42, target, Machine.hiByte value, Machine.loByte value]
  | .temperature target value => [0x43, target, Machine.hiByte value, Machine.loByte value]
  | .led r g b pulse => [0x44, r, g, b, pulse]
  | .bootload => cfg.bootloadTag.toList
  | .heartbeat => [0x48]
  | .dialValue diff => [0x56, Machine.bits8 diff]
  | .press => [0x50]
  | .longPress => [0x4C]
  | .emergencyOff => [0x58]
  | .error code => [0x45, Machine.hiByte code, Machine.loByte code]
  | .debug message => 0x44 :: Machine.lenByte message.bytes :: message.bytes

/-- The `k` bytes of a table word, bits 7..0 first. -/
def wordBytes : Nat → Nat → Bytes
  | 0, _ => []
  | k + 1, w => BitVec.ofNat 8 w :: wordBytes k (w / 256)

/-- The bytes of a table word of `nbits` bits, in whole bytes. -/
def tableBytes (nbits w : Nat) : Bytes := wordBytes ((nbits + 7) / 8) w

/-- The longest frame there can be, R65: two bytes and 255 payload bytes. -/
def longestFrame : Nat := 257

/-- The bytes of a table word as the hardware receives them, first byte first, every byte the table
gives no bits being 0. -/
def paddedBytes (nbits w : Nat) : Bytes := tableBytes nbits w ++ List.replicate longestFrame 0

/-- The family whose row a table word stands in. The word itself does not say it (R12): it is the
family with the tag, and for 0x44, a tag of both, Led where the word has Led's five bytes, else Debug
(log 12). -/
def tableFamily (nbits w : Nat) : Family :=
  let t : Byte := BitVec.ofNat 8 w
  if t = 0x44 then (if 40 ≤ nbits then .command else .report)
  else if lookup Machine.built.codec .command t = .none then .report
  else .command

/-- The instruction DECODE reads from a table word, under the configuration the machine is built with. -/
def decodeTableWord (nbits w : Nat) : Option Instr :=
  match decode Machine.built.codec (tableFamily nbits w) (paddedBytes nbits w) with
  | .decoded m _ => some m
  | .incomplete => none
  | .malformed _ => none

/-- `Message(F)` of R32: a message of the family that can be constructed. -/
abbrev Message (cfg : Codec) (F : Family) : Type :=
  { m : Instr cfg.debugMaxLen // m.family = F ∧ m.constructible cfg = true }

end Sys2Proof
end

