-- ==== Sys2Proof/Machine/State.lean ====
section
/-! DEFINITION. The state of the machine, the host's transactions and the framer's responses as plain
data (10_state.md R22 to R36, 60_exceptions.md R220 to R222, R236), and the state after reset
(70_reset_and_hazards.md R250, R252). -/

namespace Sys2Proof.Machine

/-- The two fault kinds of R33 and R220. -/
inductive FaultKind where
  | bufferFull
  | malformed
deriving DecidableEq, Repr

/-- `FaultInfo` of R33 and R222; `reason` is none exactly for BUFFER_FULL. -/
structure FaultInfo where
  kind : FaultKind
  reason : Option Reason
  /-- The messages decoded and then dropped in the faulting call. -/
  discarded : Nat
deriving DecidableEq, Repr

/-- A request of the host, R236. The Reader a request is made to is named by its direction, of which
it is the only Reader (R235; log 3). -/
inductive Txn (debugMaxLen : Nat) where
  /-- NEW(F), R180. -/
  | new (F : Family)
  /-- RESET of the Reader of `F`, R181. -/
  | reset (F : Family)
  /-- FEED(in) to the Reader of `F`, R182. -/
  | feed (F : Family) (input : Bytes)
  /-- FEED_BYTE(b) to the Reader of `F`, R188. -/
  | feedByte (F : Family) (b : Byte)
  /-- DISCARD(n) on the Reader of `F`, R189. -/
  | discard (F : Family) (n : Nat)
  /-- DECODE(F, s), R91. -/
  | decode (F : Family) (s : Bytes)
  /-- ENCODE(m), R98. -/
  | encode (m : Instr debugMaxLen)
deriving DecidableEq, Repr

/-- The one response of a transaction, R33 and R236. -/
inductive Response (debugMaxLen : Nat) where
  /-- NEW's response: the Reader exists. -/
  | created
  /-- RESET's `Ok`. -/
  | ok
  /-- `Ok(msgs)` of FEED and FEED_BYTE. -/
  | messages (msgs : List (Instr debugMaxLen))
  /-- `Fault(info)` of FEED and FEED_BYTE. -/
  | fault (info : FaultInfo)
  /-- `Ok(k)` of DISCARD. -/
  | dropped (k : Nat)
  /-- DECODE's outcome. -/
  | outcome (o : DecodeOutcome debugMaxLen)
  /-- ENCODE's frame, the encoder output buffer of R35. -/
  | frame (bytes : Bytes)
deriving DecidableEq, Repr

/-- Everything the spec gives the machine that a transaction can change (R22, R34 to R36), with the host's
requests and the last response, which are the model's own (log 2). The configuration is no part of it: it is a
parameter of the step relation (R20; log 4). Only the type of a Debug message depends on the build's `DEBUG_MAX_LEN`
(R31), so the state's type does; State with no number beside it is that of the machine that the host's interface
runs (log 5). -/
structure State (debugMaxLen : Nat := built.codec.debugMaxLen) where
  /-- The buffer `buf` of the Command direction's one Reader (R22, R235), oldest byte first; `len` is its length.
  None before NEW (R252). -/
  cmd : Option Bytes
  /-- The buffer of the Report direction's one Reader. -/
  rep : Option Bytes
  /-- The output queue of the FEED that runs, R34; empty between transactions (log 13). -/
  outq : List (Instr debugMaxLen)
  /-- The response of the last transaction; none before the first. -/
  resp : Option (Response debugMaxLen)
  /-- The host's requests that are not performed yet, the next one first. -/
  pending : List (Txn debugMaxLen)
deriving DecidableEq, Repr

/-- The machine never stops with a fault: the spec's faults are responses, after which the machine
goes on (R11, R220, R227), so nobody raises one of these and there is none (log 8). -/
inductive Fault where
deriving DecidableEq, Repr

/-- Why a request has no meaning. -/
inductive Refusal where
  /-- Raised by an arm of exec whose instruction has no meaning yet; there is none left. Safe: the
  model stops where the hardware goes on. -/
  | notModelled (mnemonic : String)
  /-- Raised by RESET, FEED, FEED_BYTE, DISCARD and by an instruction, on a Reader never created: the
  spec says a model refuses it (R252, I17). Safe: the spec gives it no meaning. -/
  | noReader
  /-- Raised by every transaction of a direction whose configuration is ill formed: the spec says a
  model refuses it (R8, R253, I20; log 22). Safe: the spec gives it no meaning. -/
  | illFormedConfig
  /-- Raised by ENCODE for a message value that cannot be constructed, and by DialValue for a difference that is
  no `i8`: the spec says a model refuses it (R100, I16; log 9). Safe: no such value exists. -/
  | notConstructible
deriving DecidableEq, Repr

/-! The types of a machine built with `p`. -/

abbrev StateOf (p : Params) : Type := State p.codec.debugMaxLen
abbrev InstrOf (p : Params) : Type := Instr p.codec.debugMaxLen
abbrev TxnOf (p : Params) : Type := Txn p.codec.debugMaxLen
abbrev OutcomeOf (p : Params) : Type := Host.Outcome (StateOf p) Fault Refusal

/-- The state before any NEW, R252. -/
def State.powerOn {n : Nat} : State n := { cmd := none, rep := none, outq := [], resp := none, pending := [] }

/-- A machine right after reset, R24 and R250: both Readers are created and hold nothing (log 6). -/
def State.cleared {n : Nat} : State n := { cmd := some [], rep := some [], outq := [], resp := none, pending := [] }

/-- The machine of the host's interface right after reset. -/
def State.reset : State := State.cleared

end Sys2Proof.Machine
end

