-- ==== Sys2Proof/Machine/Ops.lean ====
section
/-! DEFINITION. The named operations on the state: a direction's buffer, the three
ways a buffer is written (20_memory.md R46), the output queue (10_state.md R34), the end of a
transaction with its response, and raising a fault (00_scope.md R11, 60_exceptions.md R222, R231). -/

namespace Sys2Proof.Machine

/-- `Append(in)` of R11 and R46: the first byte of `input` enters first (R42). -/
def append (b input : Bytes) : Bytes := b ++ input

/-- `Drain(n)` of R11 and R46. -/
def drain (n : Nat) (b : Bytes) : Bytes := b.drop n

/-- The buffer of the Reader of `F`; none before NEW. -/
def State.buf {d : Nat} (s : State d) : Family → Option Bytes
  | .command => s.cmd
  | .report => s.rep

/-- Gives the Reader of `F` the content `b`, and nothing else. -/
def State.setBuf {d : Nat} (s : State d) (F : Family) (b : Bytes) : State d :=
  match F with
  | .command => { s with cmd := some b }
  | .report => { s with rep := some b }

/-- `out <- []`: a transaction starts with an empty output queue (R34, R36). -/
def State.clearOut {d : Nat} (s : State d) : State d := { s with outq := [] }

/-- `out <- out ++ [m]` (R182). -/
def State.pushOut {d : Nat} (s : State d) (m : Instr d) : State d := { s with outq := s.outq ++ [m] }

/-- `return r`: the transaction ends with the response `r`, and the output queue does not outlive it
(R34). -/
def State.respond {d : Nat} (s : State d) (r : Response d) : State d := { s with resp := some r, outq := [] }

/-- `raise Fault(info)`: the one operation that raises a fault. The transaction ends with the fault as
its response; nothing else is saved, masked or changed, and control goes nowhere (R222, R231). -/
def raiseFault {d : Nat} (info : FaultInfo) (s : State d) : State d := s.respond (.fault info)

/-- `return Ok(out)`: the output queue is handed over whole (R34). -/
def returnOut {d : Nat} (s : State d) : State d := s.respond (.messages s.outq)

/-- The host issues the request `t`; the next step performs it (R236). -/
def State.post {d : Nat} (s : State d) (t : Txn d) : State d := { s with pending := t :: s.pending }

/-- Goes on with `k` from a next state, and stops where `o` stops. -/
def andThen {d : Nat} (o : Host.Outcome (State d) Fault Refusal)
    (k : State d → Host.Outcome (State d) Fault Refusal) :
    Host.Outcome (State d) Fault Refusal :=
  match o with
  | .next s => k s
  | .fault r => .fault r
  | .refused r => .refused r

/-- The `Decoded(m, n)` action of R184 on the Reader of `F`: "drop the first `n` bytes from the
buffer", append `m` to the output. It takes a message value (R100) and a Reader that was created (R252); whether
the configuration has such a message was decided by DECODE (log 11). -/
def deliver {d : Nat} (F : Family) (n : Nat) (m : Instr d) (s : State d) : Host.Outcome (State d) Fault Refusal :=
  if m.wellFormed then
    match s.buf F with
    | none => .refused .noReader
    | some b => .next ((s.setBuf F (drain n b)).pushOut m)
  else .refused .notConstructible

end Sys2Proof.Machine
end

