-- ==== Sys2Proof/Machine/Command.lean ====
section
/-! DEFINITION. The meanings of the Command frames (41_command_messages.md): what the Command Reader
does when such a frame stands at its decode cursor. What a command does to the hardware is out of scope
(00_scope.md R5). -/

namespace Sys2Proof.Machine

/-- R110: a frame of 3 bytes. -/
def execPowerCycler {d : Nat} (slot : Byte) (state : Bool) (s : State d) : Host.Outcome (State d) Fault Refusal :=
  deliver .command 3 (.powerCycler slot state) s

/-- R111: a frame of 4 bytes. -/
def execBrightness {d : Nat} (target : Byte) (value : Word) (s : State d) : Host.Outcome (State d) Fault Refusal :=
  deliver .command 4 (.brightness target value) s

/-- R112: a frame of 4 bytes. -/
def execTemperature {d : Nat} (target : Byte) (value : Word) (s : State d) : Host.Outcome (State d) Fault Refusal :=
  deliver .command 4 (.temperature target value) s

/-- R113: a frame of 5 bytes. -/
def execLed {d : Nat} (r g b pulse : Byte) (s : State d) : Host.Outcome (State d) Fault Refusal :=
  deliver .command 5 (.led r g b pulse) s

/-- R114: a frame of 1 byte. DECODE gives it only where the configuration has a Bootload tag. -/
def execBootload {d : Nat} (s : State d) : Host.Outcome (State d) Fault Refusal :=
  deliver .command 1 .bootload s

end Sys2Proof.Machine
end

