-- ==== Sys2Proof/Machine/Report.lean ====
section
/-! DEFINITION. The meanings of the Report frames (42_report_messages.md): what the Report Reader does
when such a frame stands at its decode cursor. What a report means to the host is out of scope
(00_scope.md R5). -/

namespace Sys2Proof.Machine

/-- R140: a frame of 1 byte. -/
def execHeartbeat {d : Nat} (s : State d) : Host.Outcome (State d) Fault Refusal :=
  deliver .report 1 .heartbeat s

/-- R141: a frame of 2 bytes. -/
def execDialValue {d : Nat} (diff : Int) (s : State d) : Host.Outcome (State d) Fault Refusal :=
  deliver .report 2 (.dialValue diff) s

/-- R142: a frame of 1 byte. -/
def execPress {d : Nat} (s : State d) : Host.Outcome (State d) Fault Refusal :=
  deliver .report 1 .press s

/-- R143: a frame of 1 byte. -/
def execLongPress {d : Nat} (s : State d) : Host.Outcome (State d) Fault Refusal :=
  deliver .report 1 .longPress s

/-- R144: a frame of 1 byte. -/
def execEmergencyOff {d : Nat} (s : State d) : Host.Outcome (State d) Fault Refusal :=
  deliver .report 1 .emergencyOff s

/-- R145: a frame of 3 bytes. The report is payload, no fault of the framer (R240). -/
def execError {d : Nat} (code : Word) (s : State d) : Host.Outcome (State d) Fault Refusal :=
  deliver .report 3 (.error code) s

/-- R146: a frame of 2 bytes and the payload. -/
def execDebug {d : Nat} (message : DebugStr d) (s : State d) : Host.Outcome (State d) Fault Refusal :=
  deliver .report (2 + message.bytes.length) (.debug message) s

end Sys2Proof.Machine
end

