-- ==== Sys2Proof/Machine/Dispatch.lean ====
section
/-! DEFINITION. One arm per instruction. -/

namespace Sys2Proof.Machine

def exec (i : Instr) (s : State) : Host.Outcome State Fault Refusal :=
  match i with
  | .powerCycler slot state => Sys2Proof.Machine.execPowerCycler slot state s
  | .brightness target value => Sys2Proof.Machine.execBrightness target value s
  | .temperature target value => Sys2Proof.Machine.execTemperature target value s
  | .led r g b pulse => Sys2Proof.Machine.execLed r g b pulse s
  | .bootload => Sys2Proof.Machine.execBootload s
  | .heartbeat => Sys2Proof.Machine.execHeartbeat s
  | .dialValue diff => Sys2Proof.Machine.execDialValue diff s
  | .press => Sys2Proof.Machine.execPress s
  | .longPress => Sys2Proof.Machine.execLongPress s
  | .emergencyOff => Sys2Proof.Machine.execEmergencyOff s
  | .error code => Sys2Proof.Machine.execError code s
  | .debug message => Sys2Proof.Machine.execDebug message s

end Sys2Proof.Machine
end

