-- ==== Sys2Proof/Machine/Reader.lean ====
section
/-! DEFINITION. The transactions (43_reader.md R180 to R189; DECODE and ENCODE as the host asks for
them, 40_codec.md R91, R98, R100), and the step relation that performs the host's next request
(60_exceptions.md R236), with the configuration as its parameter (10_state.md R20). -/

namespace Sys2Proof.Machine

/-- exec for a machine of any `DEBUG_MAX_LEN`: the same meanings, of which exec is the one build that the host's
interface runs (log 5). -/
def execAt {d : Nat} (i : Instr d) (s : State d) : Host.Outcome (State d) Fault Refusal :=
  match i with
  | .powerCycler slot state => execPowerCycler slot state s
  | .brightness target value => execBrightness target value s
  | .temperature target value => execTemperature target value s
  | .led r g b pulse => execLed r g b pulse s
  | .bootload => execBootload s
  | .heartbeat => execHeartbeat s
  | .dialValue diff => execDialValue diff s
  | .press => execPress s
  | .longPress => execLongPress s
  | .emergencyOff => execEmergencyOff s
  | .error code => execError code s
  | .debug message => execDebug message s

/-- The decode loop of R184 with room for so many more messages: the room is tested before each decode
(R186, R228). An instruction that stands at the cursor is run by its meaning. The loop reads what DECODE reads of the
configuration, and no sizes. -/
def feedLoop (cfg : Codec) (F : Family) : Nat → State cfg.debugMaxLen →
    Host.Outcome (State cfg.debugMaxLen) Fault Refusal
  | 0, s => .next (returnOut s)
  | room + 1, s =>
    match s.buf F with
    | none => .refused .noReader
    | some b =>
      match decode cfg F b with
      | .incomplete => .next (returnOut s)
      | .malformed r =>
        .next (raiseFault { kind := .malformed, reason := some r, discarded := s.outq.length } s)
      | .decoded m _ => andThen (execAt m s) (feedLoop cfg F room)

/-- `FEED_CORE(in, bound)` of R182: the capacity check on the whole batch (R183), then the append,
then the loop. -/
def feedCore (p : Params) (F : Family) (input : Bytes) (bound : Nat) (s : StateOf p) : OutcomeOf p :=
  match s.buf F with
  | none => .refused .noReader
  | some b =>
    if (p.sizes F).cap < b.length + input.length then
      .next (raiseFault { kind := .bufferFull, reason := none, discarded := 0 } s)
    else feedLoop p.codec F bound ((s.setBuf F (append b input)).clearOut)

/-- NEW(F) of R180. The configuration was checked before (R8). -/
def newReader {d : Nat} (F : Family) (s : State d) : Host.Outcome (State d) Fault Refusal :=
  .next ((s.setBuf F []).respond .created)

/-- RESET of R181. -/
def resetReader {d : Nat} (F : Family) (s : State d) : Host.Outcome (State d) Fault Refusal :=
  match s.buf F with
  | none => .refused .noReader
  | some _ => .next ((s.setBuf F []).respond .ok)

/-- FEED(in) of R182. -/
def feed (p : Params) (F : Family) (input : Bytes) (s : StateOf p) : OutcomeOf p :=
  feedCore p F input (p.sizes F).outqCap s

/-- FEED_BYTE(b) of R188: the batch of one byte, with the bound 1. -/
def feedByte (p : Params) (F : Family) (b : Byte) (s : StateOf p) : OutcomeOf p :=
  feedCore p F [b] 1 s

/-- DISCARD(n) of R189. -/
def discardFront {d : Nat} (F : Family) (n : Nat) (s : State d) : Host.Outcome (State d) Fault Refusal :=
  match s.buf F with
  | none => .refused .noReader
  | some b => .next ((s.setBuf F (drain (min n b.length) b)).respond (.dropped (min n b.length)))

/-- DECODE(F, s) as a transaction, R91: pure (R93). -/
def decodeSlice (cfg : Codec) (F : Family) (slice : Bytes) (s : State cfg.debugMaxLen) :
    Host.Outcome (State cfg.debugMaxLen) Fault Refusal :=
  .next (s.respond (.outcome (decode cfg F slice)))

/-- ENCODE(m) as a transaction, R98: pure, and refused for a value that cannot be constructed (R100). -/
def encodeMessage (cfg : Codec) (m : Instr cfg.debugMaxLen) (s : State cfg.debugMaxLen) :
    Host.Outcome (State cfg.debugMaxLen) Fault Refusal :=
  if m.constructible cfg then
    .next (s.respond (.frame (encode cfg m)))
  else .refused .notConstructible

/-- The direction a request is about. -/
def Txn.family {d : Nat} : Txn d → Family
  | .new F => F
  | .reset F => F
  | .feed F _ => F
  | .feedByte F _ => F
  | .discard F _ => F
  | .decode F _ => F
  | .encode m => m.family

/-- What a request does, in a direction whose configuration is well formed (R236). -/
def perform (p : Params) (t : TxnOf p) (s : StateOf p) : OutcomeOf p :=
  match t with
  | .new F => newReader F s
  | .reset F => resetReader F s
  | .feed F input => feed p F input s
  | .feedByte F b => feedByte p F b s
  | .discard F n => discardFront F n s
  | .decode F slice => decodeSlice p.codec F slice s
  | .encode m => encodeMessage p.codec m s

/-- A request; a model refuses an ill-formed configuration (R8, R253; log 22). -/
def request (p : Params) (t : TxnOf p) (s : StateOf p) : OutcomeOf p :=
  if p.wellFormed t.family then perform p t s else .refused .illFormedConfig

/-- The step relation, with the configuration as its parameter (R20): the host's first pending request, whole
(R6, R48). The framer has no step of its own (R21), so with nothing pending nothing changes (log 1). -/
def stepWith (p : Params) (s : StateOf p) : OutcomeOf p :=
  match s.pending with
  | [] => .next s
  | t :: rest => request p t { s with pending := rest }

end Sys2Proof.Machine
end

