-- ==== Sys2Proof/Machine/Step.lean ====
section
/-! DEFINITION. One step, which is one transaction (00_scope.md R6), and the placing of an instruction
where the next step fetches it. -/

namespace Sys2Proof.Machine

/-- One step of the machine that the host's interface runs: the step relation under the parameters it is built
with. -/
def step (s : State) : Host.Outcome State Fault Refusal := stepWith built s

/-- `s` with the frame of a table word, and nothing behind it, at the decode cursor of the Reader of its
family, and `FEED []` as the host's next request, so that the next step decodes and runs it (R187;
log 2). Bytes that are no frame are placed as the table gives them. -/
def State.withFetchWord (s : State) (nbits w : Nat) : State :=
  let F := tableFamily nbits w
  let frame :=
    match decode built.codec F (paddedBytes nbits w) with
    | .decoded _ n => (paddedBytes nbits w).take n
    | .incomplete => tableBytes nbits w
    | .malformed _ => tableBytes nbits w
  (s.setBuf F frame).post (.feed F [])

end Sys2Proof.Machine
end

