-- ==== Sys2Proof/Machine/Flags.lean ====
section
/-! DEFINITION. The framer has no status flags, condition codes or sticky fault bits (10_state.md R25),
so no flag is computed here. What stands in their place is the numeric coding of a response's status
(60_exceptions.md R221, for a status port that needs it; log 23). -/

namespace Sys2Proof.Machine

/-- The kind code of R221; 0 stands for no fault. -/
def kindCode : Option FaultKind → Nat
  | none => 0
  | some .bufferFull => 1
  | some .malformed => 2

/-- The reason code of R221. -/
def reasonCode : Option Reason → Nat
  | none => 0
  | some .badTag => 1
  | some .badLength => 2
  | some .badUtf8 => 3

/-- The codes (kind, reason) of a response, R221. -/
def statusCodes {n : Nat} : Response n → Nat × Nat
  | .fault info => (kindCode (some info.kind), reasonCode info.reason)
  | _ => (kindCode none, reasonCode none)

end Sys2Proof.Machine
end

