-- ==== Sys2Proof/Machine/Transport.lean ====
section
/-! DEFINITION. The output side of the transport (60_exceptions.md R238, 70_reset_and_hazards.md R260).
It stands outside the block and no step runs it (log 27): it is the contract under which the frames
ENCODE gives reach the wire. -/

namespace Sys2Proof.Machine

/-- A byte sink with the frame that is being flushed to it. -/
structure Sink where
  /-- The bytes the sink accepted, oldest first: the wire stream of 20_memory.md R40. -/
  wire : Bytes
  /-- What is left of the frame that is being flushed. -/
  unsent : Bytes
deriving DecidableEq, Repr

/-- One attempt: the sink accepts some prefix of what is left (R238). -/
def Sink.attempt (accepts : Nat) (k : Sink) : Sink :=
  { wire := k.wire ++ k.unsent.take accepts, unsent := k.unsent.drop accepts }

/-- The retry loop over the attempts the sink grants, one number each. -/
def Sink.flush : List Nat → Sink → Sink
  | [], k => k
  | accepts :: more, k => Sink.flush more (k.attempt accepts)

/-- Sends frames, each flushed "synchronously to completion" before the next is begun (R238). None
where the attempts a frame was granted did not flush it: the host then still hangs in that loop
(R260). -/
def Sink.send : List (Bytes × List Nat) → Sink → Option Sink
  | [], k => some k
  | (frame, grants) :: more, k =>
    let k' := Sink.flush grants { k with unsent := frame }
    if k'.unsent = [] then Sink.send more k' else none

end Sys2Proof.Machine
end

