-- ==== Sys2Proof/Safety.lean ====
section
/-! DEFINITION. The words claims about the machine use: the invariant, greedy parsing of a stream
(43_reader.md R194), runs of several transactions, host policies (R190, 70_reset_and_hazards.md R256),
and what one direction can see. -/

namespace Sys2Proof

open Machine

/-- The greedy parse of at most `k` frames from the front of a stream, with what is left of it. -/
def parseUpTo (cfg : Codec) (F : Family) : Nat → Bytes → List (Instr cfg.debugMaxLen) × Bytes
  | 0, S => ([], S)
  | k + 1, S =>
    match decode cfg F S with
    | .incomplete => ([], S)
    | .malformed _ => ([], S)
    | .decoded m n =>
      let tail := parseUpTo cfg F k (S.drop n)
      (m :: tail.1, tail.2)

/-- `PARSE(F, S)` of R194. Every frame has a byte, so there are at most `|S|` of them. -/
def parseAll (cfg : Codec) (F : Family) (S : Bytes) : List (Instr cfg.debugMaxLen) × Bytes :=
  parseUpTo cfg F S.length S

/-- The UTF-8 bytes of a Unicode scalar value, as its Unicode definition gives them by range
(log 19, PRESUMED). -/
def scalarBytes (c : Nat) : Bytes :=
  if c < 0x80 then [BitVec.ofNat 8 c]
  else if c < 0x800 then [BitVec.ofNat 8 (0xC0 + c / 64), BitVec.ofNat 8 (0x80 + c % 64)]
  else if c < 0x10000 then
    [BitVec.ofNat 8 (0xE0 + c / 4096), BitVec.ofNat 8 (0x80 + c / 64 % 64), BitVec.ofNat 8 (0x80 + c % 64)]
  else
    [BitVec.ofNat 8 (0xF0 + c / 262144), BitVec.ofNat 8 (0x80 + c / 4096 % 64),
      BitVec.ofNat 8 (0x80 + c / 64 % 64), BitVec.ofNat 8 (0x80 + c % 64)]

/-- A Unicode scalar value: no surrogate, nothing above U+10FFFF (R149). -/
def IsScalar (c : Nat) : Prop := c < 0xD800 ∨ (0xE000 ≤ c ∧ c ≤ 0x10FFFF)

/-- A buffer in which no whole frame stands at the front. -/
def Settled (cfg : Codec) (F : Family) (b : Bytes) : Prop :=
  decode cfg F b = .incomplete ∨ ∃ r, decode cfg F b = .malformed r

/-! The invariant. -/

/-- A Reader that exists has a well-formed configuration and `|buf| <= CAP` (R8, R22). -/
def readerOk (p : Params) (F : Family) (buf : Option Bytes) : Bool :=
  match buf with
  | none => true
  | some b => p.wellFormed F && decide (b.length ≤ (p.sizes F).cap)

/-- Messages that one FEED of family `F` can return: of that family, constructible, at most `OUTQ_CAP`
(R32, R34). -/
def messagesOk (p : Params) (F : Family) (ms : List (InstrOf p)) : Bool :=
  ms.all (fun m => decide (m.family = F) && m.constructible p.codec) && decide (ms.length ≤ (p.sizes F).outqCap)

/-- A fault response that family `F` can give (R33, R221, R222): `discarded` is 0 for BUFFER_FULL and
below the bound for MALFORMED, and the Debug reasons are the Report family's. -/
def faultOk (p : Params) (F : Family) (info : FaultInfo) : Bool :=
  match info.kind, info.reason with
  | .bufferFull, none => decide (info.discarded = 0)
  | .malformed, some .badTag => decide (info.discarded < (p.sizes F).outqCap)
  | .malformed, some .badLength => decide (F = .report) && decide (info.discarded < (p.sizes F).outqCap)
  | .malformed, some .badUtf8 => decide (F = .report) && decide (info.discarded < (p.sizes F).outqCap)
  | .bufferFull, some _ => false
  | .malformed, none => false

/-- An outcome DECODE can give for family `F` (R33, R94). -/
def outcomeOk (cfg : Codec) (F : Family) : DecodeOutcome cfg.debugMaxLen → Bool
  | .incomplete => true
  | .malformed .badTag => true
  | .malformed .badLength => decide (F = .report)
  | .malformed .badUtf8 => decide (F = .report)
  | .decoded m n =>
    decide (m.family = F) && m.constructible cfg && decide (n = m.wireSize) && decide (n ≤ maxWire cfg F)

/-- A response that family `F` can give, R33. -/
def responseOk (p : Params) (F : Family) : Response p.codec.debugMaxLen → Bool
  | .created => true
  | .ok => true
  | .messages ms => messagesOk p F ms
  | .fault info => faultOk p F info
  | .dropped k => decide (k ≤ (p.sizes F).cap)
  | .outcome o => outcomeOk p.codec F o
  | .frame f => decide (1 ≤ f.length) && decide (f.length ≤ maxWire p.codec F)

/-- The last response is one that one of the two families can give. -/
def Machine.State.respOk (p : Params) (s : StateOf p) : Bool :=
  match s.resp with
  | none => true
  | some r => responseOk p .command r || responseOk p .report r

/-- The invariant of a machine built with `p`: both Readers are in order, nothing is left in the output queue
between transactions (R34), and the last response has its type (R33). -/
def Machine.State.Inv (p : Params) (s : StateOf p) : Bool :=
  readerOk p .command s.cmd && readerOk p .report s.rep && s.outq.isEmpty && s.respOk p

/-! Runs of several transactions, on a machine built with `p`. -/

/-- The state after the transactions, in order; none where one of them is refused. -/
def runTxns (p : Params) : List (TxnOf p) → StateOf p → Option (StateOf p)
  | [], s => some s
  | t :: ts, s =>
    match stepWith p (s.post t) with
    | .next s' => runTxns p ts s'
    | .fault _ => none
    | .refused _ => none

/-- FEEDs the fragments one after the other. It gives the messages of all responses in order, where
every call returned `Ok(out)` with `|out| < OUTQ_CAP`, the assumption of R194; none otherwise. -/
def feedAll (p : Params) (F : Family) : List Bytes → StateOf p → Option (List (InstrOf p) × StateOf p)
  | [], s => some ([], s)
  | f :: fs, s =>
    match stepWith p (s.post (.feed F f)) with
    | .next s' =>
      match s'.resp with
      | some (.messages out) =>
        if out.length < (p.sizes F).outqCap then
          match feedAll p F fs s' with
          | some (more, t) => some (out ++ more, t)
          | none => none
        else none
      | _ => none
    | .fault _ => none
    | .refused _ => none

/-- The drain duty of R256: `FEED []` until a call returns fewer than its bound, or a fault. At most
`k` calls; none where that is not enough. -/
def drainLoop (p : Params) (F : Family) : Nat → StateOf p → Option (StateOf p)
  | 0, _ => none
  | k + 1, s =>
    match stepWith p (s.post (.feed F [])) with
    | .next s' =>
      match s'.resp with
      | some (.messages out) => if out.length < (p.sizes F).outqCap then some s' else drainLoop p F k s'
      | _ => some s'
    | .fault _ => none
    | .refused _ => none

/-- The drop-one policy of R190: `FEED []`, and while it faults `DISCARD 1` and again. At most `k`
rounds; none where that is not enough. -/
def dropOne (p : Params) (F : Family) : Nat → StateOf p → Option (StateOf p)
  | 0, _ => none
  | k + 1, s =>
    match stepWith p (s.post (.feed F [])) with
    | .next s' =>
      match s'.resp with
      | some (.fault _) =>
        match stepWith p (s'.post (.discard F 1)) with
        | .next s'' => dropOne p F k s''
        | .fault _ => none
        | .refused _ => none
      | _ => some s'
    | .fault _ => none
    | .refused _ => none

/-- A FEED or FEED_BYTE to the Reader of `F`. -/
def IsFeedTo {d : Nat} (F : Family) (t : Txn d) : Prop := (∃ input, t = .feed F input) ∨ ∃ b, t = .feedByte F b

/-! What one direction sees. -/

/-- Two outcomes of a transaction that nobody in direction `F` can tell apart: the same Reader of `F`
and the same response, or the same refusal. -/
def sameView {d : Nat} (F : Family) :
    Host.Outcome (State d) Fault Refusal → Host.Outcome (State d) Fault Refusal → Prop
  | .next a, .next b => a.buf F = b.buf F ∧ a.resp = b.resp
  | .refused a, .refused b => a = b
  | _, _ => False

end Sys2Proof
end

