-- ==== Sys2Proof/Certificates/Slice0/Obligations.lean ====
section
/-! DEFINITION. The statements for the provers. Each docstring names the rule of spec/ it formalises;
where the spec marks the rule, or part of it, as its own decision (D..) or derivation, the docstring
says so. `stepWith p` is the step of a machine built with the parameters `p`; `s.post t` is the state in which the
host issues the request `t` next. -/

open Sys2Proof Sys2Proof.Machine

/-! The codec. -/

/-- 40_codec.md R92: the dispatch of every tag, the rest is no tag, it reads only the tag, the family and
`BOOTLOAD_TAG`, and it alone chooses the variant that DECODE builds. -/
def Obligations.DispatchSelectsByTagAlone : Prop :=
  (∀ cfg : Codec,
    lookup cfg .command 0x41 = .fixed 3 .powerCycler ∧ lookup cfg .command 0x42 = .fixed 4 .brightness ∧
    lookup cfg .command 0x43 = .fixed 4 .temperature ∧ lookup cfg .command 0x44 = .fixed 5 .led ∧
    (∀ t, cfg.bootloadTag = some t → t ∉ [(0x41 : Byte), 0x42, 0x43, 0x44] →
      lookup cfg .command t = .fixed 1 .bootload) ∧
    (∀ t, cfg.bootloadTag ≠ some t → t ∉ [(0x41 : Byte), 0x42, 0x43, 0x44] →
      lookup cfg .command t = .none) ∧
    lookup cfg .report 0x48 = .fixed 1 .heartbeat ∧ lookup cfg .report 0x56 = .fixed 2 .dialValue ∧
    lookup cfg .report 0x50 = .fixed 1 .press ∧ lookup cfg .report 0x4C = .fixed 1 .longPress ∧
    lookup cfg .report 0x58 = .fixed 1 .emergencyOff ∧ lookup cfg .report 0x45 = .fixed 3 .error ∧
    lookup cfg .report 0x44 = .lengthPrefixed ∧
    (∀ t, t ∉ [(0x48 : Byte), 0x56, 0x50, 0x4C, 0x58, 0x45, 0x44] → lookup cfg .report t = .none)) ∧
  (∀ (cfg cfg' : Codec) (F : Family) (t : Byte), cfg.bootloadTag = cfg'.bootloadTag →
    lookup cfg F t = lookup cfg' F t) ∧
  (∀ (cfg : Codec) (F : Family) (t : Byte) (rest : Bytes) (m : Instr cfg.debugMaxLen) (n : Nat),
    decode cfg F (t :: rest) = .decoded m n →
      (∃ v, lookup cfg F t = .fixed n v ∧ m.variant = .fixed v) ∨
      (lookup cfg F t = .lengthPrefixed ∧ m.variant = .debug))

/-- 41_command_messages.md R115 and 42_report_messages.md R148: every byte that the family's alphabet does
not list is `Malformed(BAD_TAG)` at the cursor, whatever follows it. -/
def Obligations.UnlistedTagsAreBadTag : Prop :=
  (∀ (cfg : Codec) (t : Byte) (rest : Bytes), t ∉ [(0x41 : Byte), 0x42, 0x43, 0x44] →
    cfg.bootloadTag ≠ some t → decode cfg .command (t :: rest) = .malformed .badTag) ∧
  (∀ (cfg : Codec) (t : Byte) (rest : Bytes),
    t ∉ [(0x48 : Byte), 0x56, 0x50, 0x4C, 0x58, 0x45, 0x44] →
      decode cfg .report (t :: rest) = .malformed .badTag)

/-- 30_encoding.md R72, which the spec marks as derived: how many byte values are illegal tags. -/
def Obligations.IllegalTagCounts : Prop :=
  (∀ cfg : Codec, cfg.bootloadTag = none →
    ((List.range 256).filter fun k =>
      decide (decode cfg .command [BitVec.ofNat 8 k] = .malformed .badTag)).length = 252) ∧
  (∀ (cfg : Codec) (t : Byte), cfg.bootloadTag = some t → bootloadTagOk cfg = true →
    ((List.range 256).filter fun k =>
      decide (decode cfg .command [BitVec.ofNat 8 k] = .malformed .badTag)).length = 251) ∧
  (∀ cfg : Codec,
    ((List.range 256).filter fun k =>
      decide (decode cfg .report [BitVec.ofNat 8 k] = .malformed .badTag)).length = 249)

/-- 41_command_messages.md R111 and R112: the Brightness and Temperature frames in both directions, Incomplete
below 4 bytes, and the two differ only in the tag. -/
def Obligations.BrightnessAndTemperatureFrames : Prop :=
  ∀ (cfg : Codec) (target hi lo : Byte) (value : Word) (rest short : Bytes), short.length < 3 →
    decode cfg .command (0x42 :: target :: hi :: lo :: rest) = .decoded (.brightness target (be16 hi lo)) 4 ∧
    decode cfg .command (0x43 :: target :: hi :: lo :: rest) = .decoded (.temperature target (be16 hi lo)) 4 ∧
    (be16 hi lo).toNat = hi.toNat * 256 + lo.toNat ∧
    decode cfg .command (0x42 :: short) = .incomplete ∧ decode cfg .command (0x43 :: short) = .incomplete ∧
    encode cfg (.brightness target value) =
      [0x42, target, value.extractLsb' 8 8, value.extractLsb' 0 8] ∧
    encode cfg (.temperature target value) =
      [0x43, target, value.extractLsb' 8 8, value.extractLsb' 0 8]

/-- 42_report_messages.md R140, R142 and R144: the one-byte Heartbeat, Press and EmergencyOff frames in both
directions; each is complete once its tag is present. -/
def Obligations.OneByteReportFrames : Prop :=
  ∀ (cfg : Codec) (rest : Bytes),
    decode cfg .report (0x48 :: rest) = .decoded .heartbeat 1 ∧ encode cfg .heartbeat = [0x48] ∧
    decode cfg .report (0x50 :: rest) = .decoded .press 1 ∧ encode cfg .press = [0x50] ∧
    decode cfg .report (0x58 :: rest) = .decoded .emergencyOff 1 ∧ encode cfg .emergencyOff = [0x58]

/-- 42_report_messages.md R143 and R147, both the spec's decision D10: LongPress (also Click) has the tag 0x4C,
and the letter of Release, 0x52, is no tag. -/
def Obligations.LongPressFrameAndNoRelease : Prop :=
  ∀ (cfg : Codec) (rest : Bytes),
    decode cfg .report (0x4C :: rest) = .decoded .longPress 1 ∧ encode cfg .longPress = [0x4C] ∧
    decode cfg .report (0x52 :: rest) = .malformed .badTag

/-- 42_report_messages.md R141 with 30_encoding.md R68: DialValue in both directions, its byte in two's
complement, with the corner values and the source's example -5. -/
def Obligations.DialValueFrameIsTwosComplement : Prop :=
  (∀ (cfg : Codec) (b : Byte) (rest : Bytes), ∃ d : Int,
    decode cfg .report (0x56 :: b :: rest) = .decoded (.dialValue d) 2 ∧
    (b.toNat < 128 → d = b.toNat) ∧ (128 ≤ b.toNat → d = (b.toNat : Int) - 256) ∧
    encode cfg (.dialValue d) = [0x56, b]) ∧
  (∀ (cfg : Codec) (d : Int), -128 ≤ d → d ≤ 127 → ∃ b : Byte,
    encode cfg (.dialValue d) = [0x56, b] ∧ (b.toNat : Int) = if 0 ≤ d then d else d + 256) ∧
  (∀ cfg : Codec, decode cfg .report [0x56] = .incomplete ∧ encode cfg (.dialValue (-5)) = [0x56, 0xFB] ∧
    decode cfg .report [0x56, 0x7F] = .decoded (.dialValue 127) 2 ∧
    decode cfg .report [0x56, 0x80] = .decoded (.dialValue (-128)) 2 ∧
    decode cfg .report [0x56, 0xFF] = .decoded (.dialValue (-1)) 2 ∧
    decode cfg .report [0x56, 0x00] = .decoded (.dialValue 0) 2)

/-- 42_report_messages.md R145: the Error frame in both directions, and Incomplete below 3 bytes. -/
def Obligations.ErrorFrame : Prop :=
  ∀ (cfg : Codec) (hi lo : Byte) (code : Word) (rest short : Bytes), short.length < 2 →
    decode cfg .report (0x45 :: hi :: lo :: rest) = .decoded (.error (be16 hi lo)) 3 ∧
    (be16 hi lo).toNat = hi.toNat * 256 + lo.toNat ∧
    decode cfg .report (0x45 :: short) = .incomplete ∧
    encode cfg (.error code) = [0x45, code.extractLsb' 8 8, code.extractLsb' 0 8]

/-- 30_encoding.md R67: the big-endian u16 field, at byte 2 of Brightness and Temperature and byte 1 of Error:
what ENCODE writes is what DECODE reads, and conversely. -/
def Obligations.WordFieldsAreBigEndian : Prop :=
  (∀ v : Word, be16 (hiByte v) (loByte v) = v ∧ (hiByte v).toNat * 256 + (loByte v).toNat = v.toNat) ∧
  (∀ hi lo : Byte, hiByte (be16 hi lo) = hi ∧ loByte (be16 hi lo) = lo) ∧
  (∀ (cfg : Codec) (target : Byte) (v : Word) (rest : Bytes),
    (encode cfg (.brightness target v))[2]? = some (hiByte v) ∧
    (encode cfg (.brightness target v))[3]? = some (loByte v) ∧
    (encode cfg (.temperature target v))[2]? = some (hiByte v) ∧
    (encode cfg (.temperature target v))[3]? = some (loByte v) ∧
    (encode cfg (.error v))[1]? = some (hiByte v) ∧ (encode cfg (.error v))[2]? = some (loByte v) ∧
    decode cfg .command (encode cfg (.brightness target v) ++ rest) = .decoded (.brightness target v) 4 ∧
    decode cfg .command (encode cfg (.temperature target v) ++ rest) = .decoded (.temperature target v) 4 ∧
    decode cfg .report (encode cfg (.error v) ++ rest) = .decoded (.error v) 3)

/-- 41_command_messages.md R110 with 30_encoding.md R69: the PowerCycler frame. The byte written for a bool is
the spec's decision D8 (log 14). -/
def Obligations.PowerCyclerFrame : Prop :=
  ∀ (cfg : Codec) (slot b : Byte) (state : Bool) (rest short : Bytes), short.length < 2 →
    decode cfg .command (0x41 :: slot :: b :: rest) = .decoded (.powerCycler slot (decide (b ≠ 0))) 3 ∧
    decode cfg .command (0x41 :: short) = .incomplete ∧
    encode cfg (.powerCycler slot state) = [0x41, slot, if state then 0x01 else 0x00]

/-- 41_command_messages.md R113 with 30_encoding.md R70, the spec's decision D9: the Led frame carries four raw
bytes, and 0x44 is never Debug in a Command Reader. -/
def Obligations.LedFrame : Prop :=
  ∀ (cfg : Codec) (r g b pulse : Byte) (rest short : Bytes), short.length < 4 →
    decode cfg .command (0x44 :: r :: g :: b :: pulse :: rest) = .decoded (.led r g b pulse) 5 ∧
    decode cfg .command (0x44 :: short) = .incomplete ∧
    encode cfg (.led r g b pulse) = [0x44, r, g, b, pulse]

/-- 41_command_messages.md R114, the spec's decision D7: Bootload is the one byte `BOOTLOAD_TAG`, and without
that tag no byte decodes to it and it cannot be constructed. -/
def Obligations.BootloadFrame : Prop :=
  (∀ (cfg : Codec) (t : Byte) (rest : Bytes), cfg.bootloadTag = some t → bootloadTagOk cfg = true →
    decode cfg .command (t :: rest) = .decoded .bootload 1 ∧ encode cfg .bootload = [t] ∧
    Instr.constructible cfg .bootload = true) ∧
  (∀ (cfg : Codec) (F : Family) (s : Bytes) (n : Nat), cfg.bootloadTag = none →
    decode cfg F s ≠ .decoded .bootload n ∧ Instr.constructible cfg .bootload = false)

/-- 42_report_messages.md R146 and 60_exceptions.md R229, the spec's decisions D15 and D16: the order of the
checks on a Debug frame. -/
def Obligations.DebugFrameChecksInOrder : Prop :=
  (∀ cfg : Codec, decode cfg .report [0x44] = .incomplete) ∧
  (∀ (cfg : Codec) (len : Byte) (payload : Bytes),
    (cfg.debugMaxLen < len.toNat → decode cfg .report (0x44 :: len :: payload) = .malformed .badLength) ∧
    (len.toNat ≤ cfg.debugMaxLen → payload.length < len.toNat →
      decode cfg .report (0x44 :: len :: payload) = .incomplete) ∧
    (len.toNat ≤ cfg.debugMaxLen → len.toNat ≤ payload.length → utf8Valid (payload.take len.toNat) = true →
      ∃ d : DebugStr cfg.debugMaxLen, d.bytes = payload.take len.toNat ∧
        decode cfg .report (0x44 :: len :: payload) = .decoded (.debug d) (2 + len.toNat)) ∧
    (len.toNat ≤ cfg.debugMaxLen → len.toNat ≤ payload.length → utf8Valid (payload.take len.toNat) = false →
      decode cfg .report (0x44 :: len :: payload) = .malformed .badUtf8)) ∧
  (∀ (cfg : Codec) (s : Bytes), 255 ≤ cfg.debugMaxLen → decode cfg .report s ≠ .malformed .badLength)

/-- 30_encoding.md R71: the length byte is authoritative in both directions. -/
def Obligations.LengthByteIsAuthoritative : Prop :=
  (∀ (cfg : Codec) (len : Byte) (payload : Bytes) (m : Instr cfg.debugMaxLen) (n : Nat),
    decode cfg .report (0x44 :: len :: payload) = .decoded m n →
      n = 2 + len.toNat ∧ len.toNat ≤ payload.length ∧
      ∃ d : DebugStr cfg.debugMaxLen, m = .debug d ∧ d.bytes = payload.take len.toNat) ∧
  (∀ (cfg : Codec) (len : Byte) (payload : Bytes), len.toNat ≤ cfg.debugMaxLen →
    (decode cfg .report (0x44 :: len :: payload) = .incomplete ↔ payload.length < len.toNat)) ∧
  (∀ (cfg : Codec) (d : DebugStr cfg.debugMaxLen), cfg.debugMaxLen ≤ 255 →
    ∃ len : Byte, encode cfg (.debug d) = 0x44 :: len :: d.bytes ∧ len.toNat = d.bytes.length)

/-- 42_report_messages.md R149, the spec's decision D22 from general knowledge G3 (log 19): `utf8_valid` accepts exactly
the sequences of the UTF-8 forms of Unicode scalar values, so no overlong form, no surrogate, nothing
above U+10FFFF and no cut character. -/
def Obligations.Utf8ValidIsScalarSequences : Prop :=
  ∀ p : Bytes, utf8Valid p = true ↔ ∃ cs : List Nat, (∀ c ∈ cs, IsScalar c) ∧ p = cs.flatMap scalarBytes

/-- 40_codec.md R95, which the spec marks as derived: exactly when DECODE answers Incomplete. -/
def Obligations.IncompleteExactlyWhen : Prop :=
  ∀ (cfg : Codec) (F : Family) (s : Bytes),
    decode cfg F s = .incomplete ↔
      s = [] ∨
      (∃ t rest n v, s = t :: rest ∧ lookup cfg F t = .fixed n v ∧ s.length < n) ∨
      (F = .report ∧ s = [0x44]) ∨
      (∃ len payload, F = .report ∧ s = 0x44 :: len :: payload ∧ len.toNat ≤ cfg.debugMaxLen ∧
        s.length < 2 + len.toNat)

/-- 40_codec.md R94, which the spec marks as derived: the size a Decoded outcome reports, and that the outcome
depends on those bytes only. -/
def Obligations.DecodedFrameBounds : Prop :=
  ∀ (cfg : Codec) (F : Family) (s : Bytes) (m : Instr cfg.debugMaxLen) (n : Nat), decode cfg F s = .decoded m n →
    1 ≤ n ∧ n ≤ s.length ∧ n = m.wireSize ∧ n ≤ maxWire cfg F ∧
    ∀ u : Bytes, decode cfg F (s.take n ++ u) = .decoded m n

/-- 40_codec.md R97, which the spec marks as derived: an outcome other than Incomplete stands when more bytes
arrive, and an Incomplete one may become any of the three. -/
def Obligations.OutcomesArePrefixStable : Prop :=
  (∀ (cfg : Codec) (F : Family) (s t : Bytes),
    (∀ m n, decode cfg F s = .decoded m n → decode cfg F (s ++ t) = .decoded m n) ∧
    (∀ r, decode cfg F s = .malformed r → decode cfg F (s ++ t) = .malformed r)) ∧
  (∀ (cfg : Codec) (F : Family), ∃ s t₁ t₂ t₃ m n r, decode cfg F s = .incomplete ∧
    decode cfg F (s ++ t₁) = .incomplete ∧ decode cfg F (s ++ t₂) = .decoded m n ∧
    decode cfg F (s ++ t₃) = .malformed r)

/-- 40_codec.md R103, which the spec marks as derived: which bytes a Malformed outcome was read from. -/
def Obligations.MalformedReadsOnlyTheFront : Prop :=
  ∀ (cfg : Codec) (F : Family) (s u : Bytes),
    (decode cfg F s = .malformed .badTag → decode cfg F (s.take 1 ++ u) = .malformed .badTag) ∧
    (decode cfg F s = .malformed .badLength → decode cfg F (s.take 2 ++ u) = .malformed .badLength) ∧
    (decode cfg F s = .malformed .badUtf8 → ∃ t len, s.take 2 = [t, len] ∧ 2 + len.toNat ≤ s.length ∧
      decode cfg F (s.take (2 + len.toNat) ++ u) = .malformed .badUtf8)

/-- 10_state.md R29 to R32 and 40_codec.md R91: DECODE builds only messages of its family that can be
constructed; a byte string is a `DebugStr` exactly where it meets both conditions of R31, two of them with the same
bytes are the same, and the Debug message of every one of them can be constructed. -/
def Obligations.DecodeBuildsConstructibleMessages : Prop :=
  (∀ (cfg : Codec) (F : Family) (s : Bytes) (m : Instr cfg.debugMaxLen) (n : Nat),
    decode cfg F s = .decoded m n → m.family = F ∧ m.constructible cfg = true) ∧
  (∀ (debugMaxLen : Nat) (p : Bytes), (p.length ≤ debugMaxLen ∧ utf8Valid p = true) ↔
    ∃ d : DebugStr debugMaxLen, d.bytes = p) ∧
  (∀ (debugMaxLen : Nat) (d e : DebugStr debugMaxLen), d.bytes = e.bytes → d = e) ∧
  ∀ (cfg : Codec) (d : DebugStr cfg.debugMaxLen), Instr.constructible cfg (.debug d) = true

/-- 40_codec.md R101, which the spec marks as derived: the round trip, for every message that can be
constructed, with any bytes after the frame. -/
def Obligations.DecodeOfEncodeRoundTrips : Prop :=
  ∀ (cfg : Codec) (F : Family) (m : Message cfg F) (t : Bytes), cfg.wellFormed = true →
    decode cfg F (encode cfg m.val ++ t) = .decoded m.val (encode cfg m.val).length

/-- 40_codec.md R102, which the spec marks as derived: re-encoding gives the frame back, but for the state byte
of a PowerCycler, which becomes 0x00 or 0x01 (D8, log 14). -/
def Obligations.ReencodingGivesTheFrameBack : Prop :=
  ∀ (cfg : Codec) (F : Family) (s : Bytes) (m : Instr cfg.debugMaxLen) (n : Nat), decode cfg F s = .decoded m n →
    (m.variant ≠ .fixed .powerCycler → encode cfg m = s.take n) ∧
    (m.variant = .fixed .powerCycler → ∃ slot b, s.take n = [0x41, slot, b] ∧
      encode cfg m = [0x41, slot, if b = 0 then 0x00 else 0x01])

/-- 40_codec.md R99: an encoded frame has the message's wire size and fits the encoder output buffer; within a
family no two variants have the same leading byte; a Command and a Report can share 0x44, and then even the
whole frame, so that only the receiver's family tells them apart. -/
def Obligations.EncodedFramesFitAndTagsDiffer : Prop :=
  (∀ (cfg : Codec) (F : Family) (m : Message cfg F),
    (encode cfg m.val).length = m.val.wireSize ∧ 1 ≤ m.val.wireSize ∧ m.val.wireSize ≤ maxWire cfg F) ∧
  (∀ (cfg : Codec) (F : Family) (m m' : Message cfg F), cfg.wellFormed = true →
    (encode cfg m.val).head? = (encode cfg m'.val).head? → m.val.variant = m'.val.variant) ∧
  (∀ (cfg : Codec) (r g b pulse : Byte) (d : DebugStr cfg.debugMaxLen),
    (encode cfg (.led r g b pulse)).head? = some 0x44 ∧ (encode cfg (.debug d)).head? = some 0x44 ∧
    (d.bytes = [g, b, pulse] → encode cfg (.led 0x03 g b pulse) = encode cfg (.debug d)))

/-- 40_codec.md R93: DECODE as a transaction is pure. It changes nothing but the response, asking twice
answers the same and changes nothing more, and its outcome depends only on the family, the slice,
`DEBUG_MAX_LEN` and `BOOTLOAD_TAG`. -/
def Obligations.DecodeTransactionIsPure : Prop :=
  (∀ (p : Params) (s : StateOf p) (F : Family) (slice : Bytes), p.wellFormed F = true →
    stepWith p (s.post (.decode F slice)) = .next (s.respond (.outcome (decode p.codec F slice)))) ∧
  (∀ (p : Params) (s t : StateOf p) (F : Family) (slice : Bytes), stepWith p (s.post (.decode F slice)) = .next t →
    t.cmd = s.cmd ∧ t.rep = s.rep ∧ t.pending = s.pending ∧ stepWith p (t.post (.decode F slice)) = .next t) ∧
  (∀ (p : Params) (cmd rep : Sizes) (s s' t t' : StateOf p) (F : Family) (slice : Bytes),
    stepWith p (s.post (.decode F slice)) = .next t →
    stepWith { p with cmd := cmd, rep := rep } (s'.post (.decode F slice)) = .next t' → t.resp = t'.resp)

/-- 40_codec.md R98 and R100, the spec's decision D23: ENCODE as a transaction answers the frame and changes
nothing else; a value that cannot be constructed is refused. -/
def Obligations.EncodeTransactionAnswersTheFrame : Prop :=
  ∀ (p : Params) (s : StateOf p) (m : InstrOf p), p.wellFormed m.family = true →
    (m.constructible p.codec = true →
      stepWith p (s.post (.encode m)) = .next (s.respond (.frame (encode p.codec m)))) ∧
    (m.constructible p.codec = false →
      stepWith p (s.post (.encode m)) = .refused .notConstructible)

/-- Frames written out from 30_encoding.md R78 decode to what they stand for, and a table word as
spec/opcode_table.json numbers its bits does too; that a table word is read in the family of its tag is the
model's choice (log 12). -/
def Obligations.FramesOfTheNotationDecode : Prop :=
  decode Codec.tc .command [0x41, 0x03, 0x01] = .decoded (.powerCycler 3 true) 3 ∧
  decode Codec.tc .command [0x42, 0x01, 0x12, 0x34] = .decoded (.brightness 1 0x1234) 4 ∧
  decode Codec.tc .command [0x43, 0x00, 0x01, 0x2C] = .decoded (.temperature 0 300) 4 ∧
  decode Codec.tc .command [0x44, 0xFF, 0x00, 0x10, 0x01] = .decoded (.led 255 0 16 1) 5 ∧
  decode Codec.tc .report [0x56, 0xFB] = .decoded (.dialValue (-5)) 2 ∧
  decode Codec.tc .report [0x45, 0x01, 0x02] = .decoded (.error 0x0102) 3 ∧
  decode Codec.tc .report [0x44, 0x02, 0x68, 0x69] = .decoded
    (.debug { bytes := [0x68, 0x69], fits := by decide, valid := by decide }) 4 ∧
  decodeTableWord 32 0x34120142 = some (.brightness 1 0x1234)

/-! The instructions: what a frame at the decode cursor does. -/

/-- 43_reader.md R184, first case, for 41_command_messages.md R110 to R114: the Command Reader drops the frame
and appends the message, in every state in which it exists. Everything else stands. That exec does not read the
bytes again, nor ask for the configuration's Bootload tag again, is the model's choice (log 11). -/
def Obligations.CommandFramesRun : Prop :=
  ∀ (s : State) (buf : Bytes), s.cmd = some buf →
    (∀ slot state, exec (.powerCycler slot state) s =
      .next { s with cmd := some (buf.drop 3), outq := s.outq ++ [.powerCycler slot state] }) ∧
    (∀ target value, exec (.brightness target value) s =
      .next { s with cmd := some (buf.drop 4), outq := s.outq ++ [.brightness target value] }) ∧
    (∀ target value, exec (.temperature target value) s =
      .next { s with cmd := some (buf.drop 4), outq := s.outq ++ [.temperature target value] }) ∧
    (∀ r g b pulse, exec (.led r g b pulse) s =
      .next { s with cmd := some (buf.drop 5), outq := s.outq ++ [.led r g b pulse] }) ∧
    exec .bootload s = .next { s with cmd := some (buf.drop 1), outq := s.outq ++ [.bootload] }

/-- 43_reader.md R184, first case, for 42_report_messages.md R140 and R142 to R145: the Report Reader drops the
frame and appends the message, in every state in which it exists. Everything else stands. That exec does not
read the bytes again is the model's choice (log 11). -/
def Obligations.FixedReportFramesRun : Prop :=
  ∀ (s : State) (buf : Bytes), s.rep = some buf →
    (∀ i ∈ [Instr.heartbeat, .press, .longPress, .emergencyOff], exec i s =
      .next { s with rep := some (buf.drop 1), outq := s.outq ++ [i] }) ∧
    (∀ code, exec (.error code) s =
      .next { s with rep := some (buf.drop 3), outq := s.outq ++ [.error code] }) ∧
    (∀ diff : Int, -128 ≤ diff → diff ≤ 127 → exec (.dialValue diff) s =
      .next { s with rep := some (buf.drop 2), outq := s.outq ++ [.dialValue diff] })

/-- 43_reader.md R184, first case, for 42_report_messages.md R146: a Debug frame runs for every `DebugStr`
(10_state.md R31), and its size is two bytes and the payload; in a machine of any `DEBUG_MAX_LEN`, of which exec is
the one that the host's interface runs (log 5). That exec does not read the bytes again is the model's choice
(log 11). -/
def Obligations.DebugFramesRun : Prop :=
  (∀ (n : Nat) (s : State n) (buf : Bytes) (d : DebugStr n), s.rep = some buf → execAt (.debug d) s =
    .next { s with rep := some (buf.drop (2 + d.bytes.length)), outq := s.outq ++ [.debug d] }) ∧
  ∀ (s : State) (buf : Bytes) (d : DebugStr built.codec.debugMaxLen), s.rep = some buf → exec (.debug d) s =
    .next { s with rep := some (buf.drop (2 + d.bytes.length)), outq := s.outq ++ [.debug d] }

/-- The frame of every instruction (R184, 20_memory.md R46), in a machine of any `DEBUG_MAX_LEN`: it changes only
the buffer of its own family, from the front by its own size, and the output queue. exec is the instruction of the
machine that the host's interface runs (log 5). What an instruction is, is the model's choice (log 11). -/
def Obligations.InstructionsChangeOnlyTheirReader : Prop :=
  (∀ (n : Nat) (i : Instr n) (s t : State n), execAt i s = .next t →
    t.resp = s.resp ∧ t.pending = s.pending ∧ t.outq = s.outq ++ [i] ∧
    (∀ F, F ≠ i.family → t.buf F = s.buf F) ∧
    ∃ b, s.buf i.family = some b ∧ t.buf i.family = some (b.drop i.wireSize)) ∧
  ∀ (i : Instr) (s : State), exec i s = execAt i s

/-- Exactly when an instruction runs, and which refusal it answers otherwise: a DialValue whose difference is no
`i8` (R9), a Reader never created (R252, D32). Every message that can be constructed under some configuration
runs where its Reader exists. That exec answers the refusals too, and that the value is looked at before the Reader,
are the model's choices (logs 9 and 11). -/
def Obligations.InstructionsRunExactlyWhen : Prop :=
  (∀ (i : Instr) (s : State),
    ((∃ t, exec i s = .next t) ↔ i.wellFormed = true ∧ ∃ b, s.buf i.family = some b) ∧
    (exec i s = .refused .notConstructible ↔ i.wellFormed = false) ∧
    (exec i s = .refused .noReader ↔ i.wellFormed = true ∧ s.buf i.family = none)) ∧
  (∀ (n : Nat) (i : Instr n), i.wellFormed = false ↔
    ∃ diff, i = .dialValue diff ∧ (diff < -128 ∨ 127 < diff)) ∧
  ∀ (cfg : Codec) (i : Instr cfg.debugMaxLen), i.constructible cfg = true → i.wellFormed = true

/-- A step runs the decoded instruction: where the bytes at the decode cursor, with the batch behind them, are
the frame of `m`, a FEED or FEED_BYTE that fits is the meaning of `m` on the state with the batch appended, and then
the rest of the loop with one message less of room (R182 to R184, R188). That meaning answers a next state. In the
machine that the host's interface runs, the step is this one and the meaning is `exec m`. The form of a request and
of an instruction, and that machine's parameters, are the model's choices (logs 2, 5 and 11). -/
def Obligations.StepRunsTheDecodedInstruction : Prop :=
  (∀ (p : Params) (s : StateOf p) (F : Family) (b input : Bytes) (m : InstrOf p) (n : Nat),
    s.buf F = some b → p.wellFormed F = true → b.length + input.length ≤ (p.sizes F).cap →
    decode p.codec F (b ++ input) = .decoded m n →
    (stepWith p (s.post (.feed F input)) =
      andThen (execAt m (s.setBuf F (b ++ input)).clearOut) (feedLoop p.codec F ((p.sizes F).outqCap - 1))) ∧
    (∀ x, input = [x] → stepWith p (s.post (.feedByte F x)) =
      andThen (execAt m (s.setBuf F (b ++ input)).clearOut) (feedLoop p.codec F 0)) ∧
    execAt m (s.setBuf F (b ++ input)).clearOut =
      .next ((s.setBuf F ((b ++ input).drop n)).clearOut.pushOut m)) ∧
  (∀ s : State, step s = stepWith built s) ∧
  ∀ (i : Instr) (s : State), execAt i s = exec i s

/-! The Reader's transactions. -/

/-- 43_reader.md R180: NEW(F) gives a Reader of family `F` with an empty buffer, whatever was there, and never
faults; an ill-formed configuration is refused before it. That the configuration is given by the parameters of
the step and by no operand of the request, and that a new Reader replaces one that is there, are the model's choices
(logs 4 and 7). -/
def Obligations.NewCreatesAnEmptyReader : Prop :=
  ∀ (p : Params) (s : StateOf p) (F : Family),
    (p.wellFormed F = true → ∃ t, stepWith p (s.post (.new F)) = .next t ∧
      t.buf F = some [] ∧ t.resp = some .created ∧ t.outq = [] ∧ t.pending = s.pending ∧
      ∀ G, G ≠ F → t.buf G = s.buf G) ∧
    (p.wellFormed F = false → stepWith p (s.post (.new F)) = .refused .illFormedConfig)

/-- 43_reader.md R181 (the spec's decision D18) with 70_reset_and_hazards.md R251: RESET empties the buffer and
keeps everything else; it is legal in every state in which the Reader exists, after a fault too. -/
def Obligations.ResetClearsTheBufferOnly : Prop :=
  ∀ (p : Params) (s : StateOf p) (F : Family) (b : Bytes), s.buf F = some b → p.wellFormed F = true →
    ∃ t, stepWith p (s.post (.reset F)) = .next t ∧ t.buf F = some [] ∧ t.resp = some .ok ∧ t.outq = [] ∧
      t.pending = s.pending ∧ ∀ G, G ≠ F → t.buf G = s.buf G

/-- 43_reader.md R189, the spec's decisions D18 and D19: DISCARD(n) drops `min(n, |buf|)` bytes from the front,
answers how many, and never faults. -/
def Obligations.DiscardDropsAndClamps : Prop :=
  ∀ (p : Params) (s : StateOf p) (F : Family) (n : Nat) (b : Bytes), s.buf F = some b →
    p.wellFormed F = true →
    stepWith p (s.post (.discard F n)) =
      .next ((s.setBuf F (b.drop (min n b.length))).respond (.dropped (min n b.length)))

/-- 43_reader.md R183 and 60_exceptions.md R223, R228 (the spec's decision D11): a batch that does not fit
faults BUFFER_FULL before any decode and changes no buffer; a batch that fits never does. -/
def Obligations.BufferFullIsCheckedFirst : Prop :=
  ∀ (p : Params) (s : StateOf p) (F : Family) (b input : Bytes), s.buf F = some b →
    p.wellFormed F = true →
    ((p.sizes F).cap < b.length + input.length →
      stepWith p (s.post (.feed F input)) =
        .next (s.respond (.fault { kind := .bufferFull, reason := none, discarded := 0 })) ∧
      ∀ x, input = [x] → stepWith p (s.post (.feedByte F x)) =
        .next (s.respond (.fault { kind := .bufferFull, reason := none, discarded := 0 }))) ∧
    (b.length + input.length ≤ (p.sizes F).cap → ∀ (t : TxnOf p) (s' : StateOf p) (info : FaultInfo),
      (t = .feed F input ∨ ∃ x, input = [x] ∧ t = .feedByte F x) →
      stepWith p (s.post t) = .next s' → s'.resp = some (.fault info) → info.kind = .malformed)

/-- 43_reader.md R184: what each pass of the decode loop does with each outcome. -/
def Obligations.DecodeLoopActsOnTheOutcome : Prop :=
  ∀ (cfg : Codec) (s : State cfg.debugMaxLen) (F : Family) (room : Nat) (b : Bytes), s.buf F = some b →
    (decode cfg F b = .incomplete → feedLoop cfg F (room + 1) s = .next (s.respond (.messages s.outq))) ∧
    (∀ r, decode cfg F b = .malformed r → ∃ d, feedLoop cfg F (room + 1) s =
      .next (s.respond (.fault { kind := .malformed, reason := some r, discarded := d }))) ∧
    (∀ m n, decode cfg F b = .decoded m n → feedLoop cfg F (room + 1) s =
      feedLoop cfg F room { (s.setBuf F (b.drop n)) with outq := s.outq ++ [m] })

/-- 43_reader.md R182 to R186 and R188 (the spec's decisions D11 to D14) as one equation: a FEED or FEED_BYTE
that fits answers the greedy parse of `buf ++ in` up to its bound, and leaves what that parse leaves; a
Malformed front reached below the bound is the fault, with the lost messages counted. -/
def Obligations.FeedIsTheBoundedParse : Prop :=
  ∀ (p : Params) (s : StateOf p) (F : Family) (b input : Bytes) (t : TxnOf p) (bound : Nat)
    (ms : List (InstrOf p)) (rest : Bytes),
    s.buf F = some b → p.wellFormed F = true → b.length + input.length ≤ (p.sizes F).cap →
    ((t = .feed F input ∧ bound = (p.sizes F).outqCap) ∨ (∃ x, input = [x] ∧ t = .feedByte F x ∧ bound = 1)) →
    parseUpTo p.codec F bound (b ++ input) = (ms, rest) →
    ms.length ≤ bound ∧
    (ms.length = bound → stepWith p (s.post t) = .next ((s.setBuf F rest).respond (.messages ms))) ∧
    (ms.length < bound →
      (decode p.codec F rest = .incomplete ∧
        stepWith p (s.post t) = .next ((s.setBuf F rest).respond (.messages ms))) ∨
      ∃ r, decode p.codec F rest = .malformed r ∧
        stepWith p (s.post t) = .next ((s.setBuf F rest).respond
          (.fault { kind := .malformed, reason := some r, discarded := ms.length })))

/-- 43_reader.md R188 and R193 (the spec's decision D14 and its derivation): on a drained buffer FEED_BYTE and
the FEED of that one byte are the same transaction, return at most one message, and leave nothing behind it. -/
def Obligations.FeedByteIsABatchOfOne : Prop :=
  ∀ (p : Params) (s : StateOf p) (F : Family) (b : Bytes) (x : Byte), s.buf F = some b →
    p.wellFormed F = true → decode p.codec F b = .incomplete →
    stepWith p (s.post (.feedByte F x)) = stepWith p (s.post (.feed F [x])) ∧
    ∀ t ms, stepWith p (s.post (.feed F [x])) = .next t → t.resp = some (.messages ms) →
      ms.length ≤ 1 ∧ (ms ≠ [] → t.buf F = some [])

/-- 20_memory.md R46: a buffer is only appended to at the end (by FEED and FEED_BYTE), drained at the front (by
those and DISCARD) or cleared (by NEW and RESET), each at its own Reader, and it stays within `CAP`. -/
def Obligations.BuffersAreOnlyAppendedAndDrained : Prop :=
  ∀ (p : Params) (s s' : StateOf p) (t : TxnOf p) (F : Family) (b b' : Bytes), stepWith p (s.post t) = .next s' →
    s.buf F = some b → s'.buf F = some b' →
    ((t = .new F ∨ t = .reset F) → b' = []) ∧
    ((∃ n, t = .discard F n) → ∃ k, b' = b.drop k) ∧
    (∀ input, (t = .feed F input ∨ ∃ x, input = [x] ∧ t = .feedByte F x) →
      b' = b ∨ ∃ k, b' = (b ++ input).drop k) ∧
    (¬(t = .new F ∨ t = .reset F ∨ (∃ n, t = .discard F n) ∨ IsFeedTo F t) → b' = b) ∧
    (b.length ≤ (p.sizes F).cap → b'.length ≤ (p.sizes F).cap)

/-- 43_reader.md R192, which the spec marks as derived: what a response says about the buffer it leaves. -/
def Obligations.ResponsesTellTheBuffer : Prop :=
  ∀ (p : Params) (s s' : StateOf p) (F : Family) (t : TxnOf p) (bound : Nat), p.wellFormed F = true →
    ((∃ input, t = .feed F input ∧ bound = (p.sizes F).outqCap) ∨ (∃ x, t = .feedByte F x ∧ bound = 1)) →
    stepWith p (s.post t) = .next s' →
    ∃ b', s'.buf F = some b' ∧
      ((∃ ms, s'.resp = some (.messages ms) ∧ ms.length ≤ bound ∧
          (ms.length < bound → decode p.codec F b' = .incomplete ∧ b'.length + 1 ≤ maxWire p.codec F)) ∨
        (∃ r d, s'.resp = some (.fault { kind := .malformed, reason := some r, discarded := d }) ∧
          decode p.codec F b' = .malformed r ∧ d + 1 ≤ bound) ∨
        (s'.resp = some (.fault { kind := .bufferFull, reason := none, discarded := 0 }) ∧
          s.buf F = some b'))

/-- 43_reader.md R194, which the spec marks as derived: however a stream is split, FEEDs that all fit and stay
below the output bound return the messages of its greedy parse, and leave what that parse leaves. -/
def Obligations.FragmentationDoesNotMatter : Prop :=
  ∀ (p : Params) (s s' : StateOf p) (F : Family) (fragments : List Bytes) (outs : List (InstrOf p)),
    s.buf F = some [] → p.wellFormed F = true → feedAll p F fragments s = some (outs, s') →
    outs = (parseAll p.codec F fragments.flatten).1 ∧
    s'.buf F = some (parseAll p.codec F fragments.flatten).2

/-- 43_reader.md R195, which the spec marks as derived: all but the last byte of a frame gives no message and no
fault, and the last byte gives the message. -/
def Obligations.LastByteCompletesTheFrame : Prop :=
  ∀ (p : Params) (s : StateOf p) (F : Family) (front : Bytes) (x : Byte) (m : InstrOf p), s.buf F = some [] →
    p.wellFormed F = true → front ≠ [] →
    decode p.codec F (front ++ [x]) = .decoded m (front.length + 1) →
    ∃ t, stepWith p (s.post (.feed F front)) = .next t ∧ t.resp = some (.messages []) ∧
      ∃ u, stepWith p (t.post (.feed F [x])) = .next u ∧ u.resp = some (.messages [m]) ∧ u.buf F = some []

/-- 43_reader.md R196, which the spec marks as derived: a byte that is no tag, fed to an empty Reader, faults at
once with no message, and stays in the buffer. -/
def Obligations.BadTagFaultsAtOnce : Prop :=
  ∀ (p : Params) (s : StateOf p) (F : Family) (b : Byte), s.buf F = some [] → p.wellFormed F = true →
    lookup p.codec F b = .none →
    stepWith p (s.post (.feed F [b])) = .next ((s.setBuf F [b]).respond
      (.fault { kind := .malformed, reason := some .badTag, discarded := 0 }))

/-- 43_reader.md R197, which the spec marks as derived: fed one byte at a time, a Reader always has no whole
frame at its front, and it fills up only behind a Malformed front. -/
def Obligations.BytewiseFeedingFillsOnlyBehindMalformed : Prop :=
  ∀ (p : Params) (s s' : StateOf p) (F : Family) (xs : Bytes) (b' : Bytes), s.buf F = some [] →
    p.wellFormed F = true → runTxns p (xs.map (.feedByte F)) s = some s' → s'.buf F = some b' →
    Settled p.codec F b' ∧
    (b'.length = (p.sizes F).cap → ∃ r, decode p.codec F b' = .malformed r)

/-- 43_reader.md R198, which the spec marks as derived: behind a Malformed front every FEED and FEED_BYTE faults,
MALFORMED while the bytes fit and BUFFER_FULL after that, and the front stays, for ever. -/
def Obligations.MalformedFrontStalls : Prop :=
  ∀ (p : Params) (s : StateOf p) (F : Family) (b : Bytes) (r : Reason), s.buf F = some b →
    p.wellFormed F = true → decode p.codec F b = .malformed r →
    (∀ input : Bytes, stepWith p (s.post (.feed F input)) = .next (if b.length + input.length ≤ (p.sizes F).cap then
        (s.setBuf F (b ++ input)).respond (.fault { kind := .malformed, reason := some r, discarded := 0 })
      else s.respond (.fault { kind := .bufferFull, reason := none, discarded := 0 }))) ∧
    (∀ ts : List (TxnOf p), (∀ t ∈ ts, IsFeedTo F t) → ∃ s' b', runTxns p ts s = some s' ∧
      s'.buf F = some b' ∧
      decode p.codec F b' = .malformed r ∧ b <+: b' ∧
      (ts ≠ [] → s'.resp = some (.fault { kind := .malformed, reason := some r, discarded := 0 }) ∨
        s'.resp = some (.fault { kind := .bufferFull, reason := none, discarded := 0 })))

/-- 60_exceptions.md R220 to R227 (the spec's decision D17): only FEED and FEED_BYTE answer a fault, of exactly
these two kinds, each with its cause. -/
def Obligations.FaultsComeOnlyFromFeeds : Prop :=
  ∀ (p : Params) (s s' : StateOf p) (t : TxnOf p) (info : FaultInfo), stepWith p (s.post t) = .next s' →
    s'.resp = some (.fault info) →
    ∃ (F : Family) (b input : Bytes), (t = .feed F input ∨ ∃ x, input = [x] ∧ t = .feedByte F x) ∧
      s.buf F = some b ∧
      ((info = { kind := .bufferFull, reason := none, discarded := 0 } ∧
          (p.sizes F).cap < b.length + input.length ∧ s'.buf F = some b) ∨
        (info.kind = .malformed ∧ ∃ r b', info.reason = some r ∧ s'.buf F = some b' ∧
          decode p.codec F b' = .malformed r))

/-- 60_exceptions.md R221, the spec's decision D20: the numeric codes of a response. -/
def Obligations.StatusCodesOfResponses : Prop :=
  (∀ n d, statusCodes (n := n) (.fault { kind := .bufferFull, reason := none, discarded := d }) = (1, 0) ∧
    statusCodes (n := n) (.fault { kind := .malformed, reason := some .badTag, discarded := d }) = (2, 1) ∧
    statusCodes (n := n) (.fault { kind := .malformed, reason := some .badLength, discarded := d }) = (2, 2) ∧
    statusCodes (n := n) (.fault { kind := .malformed, reason := some .badUtf8, discarded := d }) = (2, 3)) ∧
  (∀ (n : Nat) (r : Response n), statusCodes r = (0, 0) ↔ ∀ info, r ≠ .fault info)

/-! The whole machine. -/

/-- 60_exceptions.md R235: no transaction on one direction affects the other, or can tell anything about it, the
sizes of the other Reader among them. That both directions stand in one state is the model's choice (log 3). -/
def Obligations.DirectionsAreIsolated : Prop :=
  (∀ (p : Params) (s s' : StateOf p) (t : TxnOf p) (G : Family),
    stepWith p (s.post t) = .next s' → G ≠ t.family → s'.buf G = s.buf G) ∧
  (∀ (p : Params) (cmd rep : Sizes) (s₁ s₂ : StateOf p) (t : TxnOf p),
    ({ p with cmd := cmd, rep := rep } : Params).sizes t.family = p.sizes t.family →
    s₁.buf t.family = s₂.buf t.family →
    sameView t.family (stepWith p (s₁.post t)) (stepWith { p with cmd := cmd, rep := rep } (s₂.post t)))

/-- 10_state.md R20: the configuration is a parameter of the step relation and not of the state. A Reader's request
reads the sizes of its own direction only, DECODE and ENCODE read none of them beyond the check that they are
well formed (00_scope.md R8), and a step takes exactly the first request, which is where the model keeps them (log 2).
The step of the host's interface is the step under one value of the parameters, the model's choice (logs 4 and 5). -/
def Obligations.ConfigurationIsAParameterOfTheStep : Prop :=
  (∀ (p : Params) (cmd rep : Sizes) (s : StateOf p) (t : TxnOf p),
    ({ p with cmd := cmd, rep := rep } : Params).sizes t.family = p.sizes t.family →
    stepWith { p with cmd := cmd, rep := rep } (s.post t) = stepWith p (s.post t)) ∧
  (∀ (p : Params) (cmd rep : Sizes) (s : StateOf p) (t : TxnOf p),
    ((∃ F slice, t = .decode F slice) ∨ ∃ m, t = .encode m) →
    p.wellFormed t.family = true →
    Params.wellFormed { p with cmd := cmd, rep := rep } t.family = true →
    stepWith { p with cmd := cmd, rep := rep } (s.post t) = stepWith p (s.post t)) ∧
  (∀ (p : Params) (s t : StateOf p), stepWith p s = .next t → t.pending = s.pending.tail) ∧
  ∀ s : State, step s = stepWith built s

/-- 10_state.md R21: the framer has no step of its own. The step that changes nothing is the model's form of it
(log 1). -/
def Obligations.FramerIsPassive : Prop :=
  (∀ (p : Params) (s : StateOf p), s.pending = [] → stepWith p s = .next s) ∧
  ∀ s : State, s.pending = [] → step s = .next s

/-- The invariant of Safety.lean (R22, R33, R34, R46): every step keeps it, whatever the parameters, and so does the
step of the host's interface. -/
def Obligations.StepKeepsTheInvariant : Prop :=
  (∀ (p : Params) (s t : StateOf p), s.Inv p = true → stepWith p s = .next t → t.Inv p = true) ∧
  ∀ s t : State, s.Inv built = true → step s = .next t → t.Inv built = true

/-- The invariant holds right after reset (70_reset_and_hazards.md R250), for all parameters that are well formed
in both directions (00_scope.md R8), of which `built` is one, and before any NEW (R252). The values in
`built`, and that both Readers exist after reset, are the model's choices (logs 5 and 6). -/
def Obligations.ResetMeetsTheInvariant : Prop :=
  State.reset.Inv built = true ∧
  (∀ p : Params, p.wellFormed .command = true → p.wellFormed .report = true →
    State.Inv p State.cleared = true) ∧
  ∀ p : Params, State.Inv p State.powerOn = true

/-- 70_reset_and_hazards.md R250 and R252 (the spec's decisions D18 and D32): after reset both buffers are
empty; NEW of both directions, from the state before any NEW, leads there but for its response, under all
parameters that are well formed in both. That both Readers exist after reset is the model's choice (log 6). -/
def Obligations.ResetLeavesEmptyBuffers : Prop :=
  (∀ F, State.reset.buf F = some []) ∧ State.reset.outq = [] ∧ State.reset.pending = [] ∧
  State.reset = State.cleared ∧ (∀ (n : Nat) (F : Family), (State.powerOn : State n).buf F = none) ∧
  ∀ p : Params, p.wellFormed .command = true → p.wellFormed .report = true →
    runTxns p [.new .command, .new .report] State.powerOn =
      some { (State.cleared : StateOf p) with resp := some .created }

/-- Every request is answered with a next state but for three cases, each refused under its own name; nothing
else is ever refused, and nothing stops the machine with a fault. A Reader never created
(70_reset_and_hazards.md R252, D32) and a value that cannot be constructed (40_codec.md R100, D23) are refused as
the spec's decisions say. An ill-formed configuration is refused because 00_scope.md R8 (D4) says that a model
refuses it; that every transaction of its direction is where it is refused, DECODE and ENCODE too, and before the
other two are looked at, is the model's choice (log 22, DESIGN CHOICE). -/
def Obligations.RequestsAreAnsweredButForThreeRefusals : Prop :=
  ∀ (p : Params) (s : StateOf p) (t : TxnOf p),
    (stepWith p (s.post t) = .refused .illFormedConfig ↔ p.wellFormed t.family = false) ∧
    (stepWith p (s.post t) = .refused .noReader ↔
      p.wellFormed t.family = true ∧ s.buf t.family = none ∧
      (t = .reset t.family ∨ IsFeedTo t.family t ∨ ∃ n, t = .discard t.family n)) ∧
    (stepWith p (s.post t) = .refused .notConstructible ↔
      p.wellFormed t.family = true ∧
      ∃ m, t = .encode m ∧ m.constructible p.codec = false) ∧
    ((∃ u, stepWith p (s.post t) = .next u) ∨ stepWith p (s.post t) = .refused .illFormedConfig ∨
      stepWith p (s.post t) = .refused .noReader ∨ stepWith p (s.post t) = .refused .notConstructible)

/-- 70_reset_and_hazards.md R256 with 43_reader.md R191, which the spec marks as derived: the host's drain loop ends
within `|buf| + 1` calls, and leaves what the greedy parse leaves, which holds no whole frame. -/
def Obligations.DrainLoopEnds : Prop :=
  ∀ (p : Params) (s : StateOf p) (F : Family) (b : Bytes), s.buf F = some b → p.wellFormed F = true →
    b.length ≤ (p.sizes F).cap →
    ∃ s', drainLoop p F (b.length + 1) s = some s' ∧
      s'.buf F = some (parseAll p.codec F b).2 ∧ Settled p.codec F (parseAll p.codec F b).2

/-- 43_reader.md R190, policy (a): dropping one byte and trying again ends within `|buf| + 1` rounds in a call
that returns messages and no fault. -/
def Obligations.DropOneResynchronises : Prop :=
  ∀ (p : Params) (s : StateOf p) (F : Family) (b : Bytes), s.buf F = some b → p.wellFormed F = true →
    b.length ≤ (p.sizes F).cap →
    ∃ s' ms, dropOne p F (b.length + 1) s = some s' ∧ s'.resp = some (.messages ms)

/-- End to end (40_codec.md R101 and 43_reader.md R194, both derived by the spec): the messages that were encoded
are the messages a Reader returns, however the stream was split; and frame by frame it does return them. That the
sender encodes under the configuration the receiver was built with is the model's choice (log 10, DESIGN CHOICE,
unsafe for a claim about both ends): of two builds that differ this says nothing. -/
def Obligations.EncodedMessagesAreDelivered : Prop :=
  ∀ (p : Params) (s : StateOf p) (F : Family) (ms : List (InstrOf p)), s.buf F = some [] →
    p.wellFormed F = true →
    (∀ m ∈ ms, m.family = F ∧ m.constructible p.codec = true) →
    (∀ fragments outs s', fragments.flatten = ms.flatMap (encode p.codec) →
      feedAll p F fragments s = some (outs, s') → outs = ms ∧ s'.buf F = some []) ∧
    (2 ≤ (p.sizes F).outqCap → ∃ s', feedAll p F (ms.map (encode p.codec)) s = some (ms, s'))

/-- 00_scope.md R8 (which the spec marks as derived, with its decisions D4 and D7): which configurations are well
formed. -/
def Obligations.WellFormedConfigurations : Prop :=
  ∀ (p : Params) (F : Family), p.wellFormed F = true ↔
    (match F with
      | .command => 5
      | .report => max 3 (2 + p.codec.debugMaxLen)) ≤ (p.sizes F).cap ∧
    p.codec.debugMaxLen ≤ 255 ∧ 1 ≤ (p.sizes F).outqCap ∧
    ∀ t, p.codec.bootloadTag = some t → t ∉ [(0x41 : Byte), 0x42, 0x43, 0x44]

/-- 60_exceptions.md R238: frames that were flushed one after the other stand on the wire whole, contiguous and
in order, however the sink split its attempts. 70_reset_and_hazards.md R260, the spec's decision D30: a sink that
never accepts a byte never lets a frame be flushed. The transport is outside the block, and its form here is the
model's choice (log 27). -/
def Obligations.FramesReachTheWireWhole : Prop :=
  (∀ (jobs : List (Bytes × List Nat)) (k k' : Sink), k.unsent = [] → Sink.send jobs k = some k' →
    k'.wire = k.wire ++ (jobs.map Prod.fst).flatten ∧ k'.unsent = []) ∧
  (∀ (frame : Bytes) (grants : List Nat) (k : Sink),
    (Sink.flush grants { k with unsent := frame }).wire ++ (Sink.flush grants { k with unsent := frame }).unsent =
      k.wire ++ frame) ∧
  (∀ (frame : Bytes) (tries : Nat) (more : List (Bytes × List Nat)) (k : Sink), frame ≠ [] →
    Sink.send ((frame, List.replicate tries 0) :: more) k = none)
end

