-- ==== Sys2Proof/Laws/Operands.lean ====
section
/-! SUPPORT. The operand forms read back what they write, and write back what they read. -/

namespace Sys2Proof.Machine

theorem be16_toNat (hi lo : Byte) : (be16 hi lo).toNat = hi.toNat * 256 + lo.toNat := by
  have h1 := hi.isLt
  have h2 := lo.isLt
  simp only [be16, BitVec.toNat_ofNat]
  omega

theorem hiByte_toNat (v : Word) : (hiByte v).toNat = v.toNat / 256 := by
  have h := v.isLt
  simp only [hiByte, BitVec.toNat_ofNat]
  omega

theorem loByte_toNat (v : Word) : (loByte v).toNat = v.toNat % 256 := by
  simp only [loByte, BitVec.toNat_ofNat]
  omega

@[simp] theorem be16_hiByte_loByte (v : Word) : be16 (hiByte v) (loByte v) = v := by
  apply BitVec.eq_of_toNat_eq
  rw [be16_toNat, hiByte_toNat, loByte_toNat]
  omega

@[simp] theorem hiByte_be16 (hi lo : Byte) : hiByte (be16 hi lo) = hi := by
  apply BitVec.eq_of_toNat_eq
  have h := lo.isLt
  rw [hiByte_toNat, be16_toNat]
  omega

@[simp] theorem loByte_be16 (hi lo : Byte) : loByte (be16 hi lo) = lo := by
  apply BitVec.eq_of_toNat_eq
  have h := lo.isLt
  rw [loByte_toNat, be16_toNat]
  omega

theorem isI8_iff {d : Int} : isI8 d = true ↔ -128 ≤ d ∧ d ≤ 127 := by
  simp [isI8]

@[simp] theorem isI8_sext8 (b : Byte) : isI8 (sext8 b) = true := by
  have h := b.isLt
  rw [isI8_iff, sext8]
  split <;> omega

@[simp] theorem bits8_sext8 (b : Byte) : bits8 (sext8 b) = b := by
  apply BitVec.eq_of_toNat_eq
  have h := b.isLt
  unfold bits8 sext8
  split <;> split <;> simp only [BitVec.toNat_ofInt] <;> omega

theorem sext8_bits8 {d : Int} (h : isI8 d = true) : sext8 (bits8 d) = d := by
  rw [isI8_iff] at h
  unfold sext8 bits8
  simp only [BitVec.toNat_ofInt]
  split <;> split <;> omega

@[simp] theorem boolOf_boolByte (v : Bool) : boolOf (boolByte v) = v := by
  cases v <;> rfl

theorem boolByte_boolOf (b : Byte) : boolByte (boolOf b) = if b = 0 then 0x00 else 0x01 := by
  by_cases h : b = 0 <;> simp [boolByte, boolOf, h]

theorem lenByte_toNat {p : Bytes} (h : p.length ≤ 255) : (lenByte p).toNat = p.length := by
  simp only [lenByte, BitVec.toNat_ofNat]
  omega

/-- R8: every message size is at least one byte, and three in the Report family. -/
theorem three_le_maxWire (cfg : Codec) (F : Family) : 3 ≤ maxWire cfg F := by
  cases F <;> simp [maxWire]

end Sys2Proof.Machine
end

