-- ==== Sys2Proof/Laws/Codec.lean ====
section
/-! SUPPORT. What the dispatch and DECODE can answer, said once. -/

namespace Sys2Proof

open Machine

/-- What each clause of R8 gives. -/
theorem Codec.wellFormed_iff {cfg : Codec} : cfg.wellFormed = true ↔
    cfg.debugMaxLen ≤ 255 ∧ bootloadTagOk cfg = true := by
  simp [Codec.wellFormed, debugMaxLenOk]

theorem Params.wellFormed_iff {p : Params} {F : Family} : p.wellFormed F = true ↔
    maxWire p.codec F ≤ (p.sizes F).cap ∧ 1 ≤ (p.sizes F).outqCap ∧ p.codec.wellFormed = true := by
  simp [Params.wellFormed, capOk, outqCapOk, and_assoc]

/-- A Bootload tag is none of the four Command tags (R63). -/
theorem bootloadTagOk_ne {cfg : Codec} {t : Byte} (h : bootloadTagOk cfg = true)
    (ht : cfg.bootloadTag = some t) : t ≠ 0x41 ∧ t ≠ 0x42 ∧ t ≠ 0x43 ∧ t ≠ 0x44 := by
  simpa [bootloadTagOk, ht, and_assoc] using h

/-! `DebugStr`, R31. -/

/-- Two `DebugStr` with the same bytes are the same (R32). -/
theorem DebugStr.eq_of {n : Nat} {d e : DebugStr n} (h : d.bytes = e.bytes) : d = e := by
  cases d; cases e; simp_all

/-- Every byte string that meets the two conditions is a `DebugStr`. -/
theorem DebugStr.ofBytes_of {n : Nat} {p : Bytes} (hl : p.length ≤ n) (hv : utf8Valid p = true) :
    DebugStr.ofBytes n p = some { bytes := p, fits := hl, valid := hv } := by
  simp [DebugStr.ofBytes, hl, hv]

theorem DebugStr.ofBytes_eq_some {n : Nat} {p : Bytes} {d : DebugStr n} :
    DebugStr.ofBytes n p = some d ↔ d.bytes = p := by
  constructor
  · intro h
    unfold DebugStr.ofBytes at h
    split at h <;> cases h
    rfl
  · rintro rfl
    exact DebugStr.ofBytes_of d.fits d.valid

theorem DebugStr.ofBytes_eq_none {n : Nat} {p : Bytes} :
    DebugStr.ofBytes n p = none ↔ (p.length ≤ n → utf8Valid p = false) := by
  simp [DebugStr.ofBytes]

/-- A dispatch to a fixed frame is one of the ten rows of R61 and R62. -/
theorem lookup_fixed {cfg : Codec} {F : Family} {t : Byte} {n : Nat} {v : FixedVariant}
    (h : lookup cfg F t = .fixed n v) :
    (F = .command ∧
      ((t = 0x41 ∧ n = 3 ∧ v = .powerCycler) ∨ (t = 0x42 ∧ n = 4 ∧ v = .brightness) ∨
        (t = 0x43 ∧ n = 4 ∧ v = .temperature) ∨ (t = 0x44 ∧ n = 5 ∧ v = .led) ∨
        (cfg.bootloadTag = some t ∧ n = 1 ∧ v = .bootload))) ∨
    (F = .report ∧
      ((t = 0x48 ∧ n = 1 ∧ v = .heartbeat) ∨ (t = 0x56 ∧ n = 2 ∧ v = .dialValue) ∨
        (t = 0x50 ∧ n = 1 ∧ v = .press) ∨ (t = 0x4C ∧ n = 1 ∧ v = .longPress) ∨
        (t = 0x58 ∧ n = 1 ∧ v = .emergencyOff) ∨ (t = 0x45 ∧ n = 3 ∧ v = .error))) := by
  cases F <;> simp only [lookup] at h <;> (repeat' split at h) <;> simp_all

/-- Only the Report tag 0x44 is length-prefixed (R74). -/
theorem lookup_lengthPrefixed {cfg : Codec} {F : Family} {t : Byte} :
    lookup cfg F t = .lengthPrefixed ↔ F = .report ∧ t = 0x44 := by
  cases F <;> simp only [lookup] <;> (repeat' split) <;> simp_all

/-- The frame size the dispatch gives each fixed-size variant (R64). -/
def FixedVariant.size : FixedVariant → Nat
  | .powerCycler => 3
  | .brightness => 4
  | .temperature => 4
  | .led => 5
  | .bootload => 1
  | .heartbeat => 1
  | .dialValue => 2
  | .press => 1
  | .longPress => 1
  | .emergencyOff => 1
  | .error => 3

theorem lookup_fixed_size {cfg : Codec} {F : Family} {t : Byte} {n : Nat} {v : FixedVariant}
    (h : lookup cfg F t = .fixed n v) : n = v.size := by
  rcases lookup_fixed h with ⟨-, h⟩ | ⟨-, h⟩
  · rcases h with ⟨-, rfl, rfl⟩ | ⟨-, rfl, rfl⟩ | ⟨-, rfl, rfl⟩ | ⟨-, rfl, rfl⟩ | ⟨-, rfl, rfl⟩ <;>
      rfl
  · rcases h with ⟨-, rfl, rfl⟩ | ⟨-, rfl, rfl⟩ | ⟨-, rfl, rfl⟩ | ⟨-, rfl, rfl⟩ | ⟨-, rfl, rfl⟩ |
      ⟨-, rfl, rfl⟩ <;> rfl

/-- The three clauses of DECODE on a slice that is not empty (R91). -/
theorem decode_cons_none {cfg : Codec} {F : Family} {t : Byte} (rest : Bytes)
    (h : lookup cfg F t = .none) : decode cfg F (t :: rest) = .malformed .badTag := by
  simp [decode, byteAt, h]

theorem decode_cons_fixed {cfg : Codec} {F : Family} {t : Byte} {n : Nat} {v : FixedVariant} (rest : Bytes)
    (h : lookup cfg F t = .fixed n v) : decode cfg F (t :: rest) =
      if rest.length + 1 < n then .incomplete else .decoded (build v ((t :: rest).take n)) n := by
  simp [decode, byteAt, h, decodeFixed]

theorem decode_cons_debug (cfg : Codec) (len : Byte) (payload : Bytes) :
    decode cfg .report (0x44 :: len :: payload) =
      if cfg.debugMaxLen < len.toNat then .malformed .badLength
      else if payload.length < len.toNat then .incomplete
      else
        match DebugStr.ofBytes cfg.debugMaxLen (payload.take len.toNat) with
        | some message => .decoded (.debug message) (2 + len.toNat)
        | none => .malformed .badUtf8 := by
  have h : decode cfg .report (0x44 :: len :: payload) = decodeDebug cfg (0x44 :: len :: payload) := rfl
  rw [h, Nat.add_comm 2]
  simp only [decodeDebug, byteAt, memRead, List.length_cons, List.getD_cons_zero, List.getD_cons_succ,
    List.drop_succ_cons, List.drop_zero, Nat.add_comm 2, Nat.add_lt_add_iff_right]
  exact (if_neg (by omega)).trans rfl

theorem decode_debug_tag (cfg : Codec) : decode cfg .report [0x44] = .incomplete := rfl

/-- The last test on a Debug frame, for a payload that is there and has a legal length. -/
theorem decode_cons_debug_valid {cfg : Codec} {len : Byte} {payload : Bytes}
    (hm : len.toNat ≤ cfg.debugMaxLen) (hl : len.toNat ≤ payload.length)
    (hv : utf8Valid (payload.take len.toNat) = true) : ∃ d : DebugStr cfg.debugMaxLen,
      d.bytes = payload.take len.toNat ∧
      decode cfg .report (0x44 :: len :: payload) = .decoded (.debug d) (2 + len.toNat) := by
  have hfits : (payload.take len.toNat).length ≤ cfg.debugMaxLen := by
    simp only [List.length_take]
    omega
  exact ⟨{ bytes := payload.take len.toNat, fits := hfits, valid := hv }, rfl,
    by rw [decode_cons_debug, if_neg (by omega), if_neg (by omega), DebugStr.ofBytes_of hfits hv]⟩

theorem decode_cons_debug_invalid {cfg : Codec} {len : Byte} {payload : Bytes}
    (hm : len.toNat ≤ cfg.debugMaxLen) (hl : len.toNat ≤ payload.length)
    (hv : utf8Valid (payload.take len.toNat) = false) :
    decode cfg .report (0x44 :: len :: payload) = .malformed .badUtf8 := by
  rw [decode_cons_debug, if_neg (by omega), if_neg (by omega), DebugStr.ofBytes_eq_none.2 fun _ => hv]

/-- Every way DECODE can answer `Decoded`: a whole fixed-size frame, or a whole Debug frame with a legal
length and a valid payload (R91). -/
theorem decode_decoded {cfg : Codec} {F : Family} {s : Bytes} {m : Instr cfg.debugMaxLen} {n : Nat}
    (h : decode cfg F s = .decoded m n) :
    (∃ t rest v, s = t :: rest ∧ lookup cfg F t = .fixed n v ∧ n ≤ s.length ∧ m = build v (s.take n)) ∨
    (∃ len payload d, F = .report ∧ s = 0x44 :: len :: payload ∧ len.toNat ≤ cfg.debugMaxLen ∧
      len.toNat ≤ payload.length ∧ d.bytes = payload.take len.toNat ∧
      m = .debug d ∧ n = 2 + len.toNat) := by
  cases s with
  | nil => simp [decode] at h
  | cons t rest =>
    cases hl : lookup cfg F t with
    | none => rw [decode_cons_none rest hl] at h; cases h
    | fixed k v =>
      rw [decode_cons_fixed rest hl] at h
      split at h <;> cases h
      exact .inl ⟨t, rest, v, rfl, hl, by simp only [List.length_cons]; omega, rfl⟩
    | lengthPrefixed =>
      obtain ⟨rfl, rfl⟩ := lookup_lengthPrefixed.1 hl
      cases rest with
      | nil => rw [decode_debug_tag] at h; cases h
      | cons len payload =>
        rw [decode_cons_debug] at h
        repeat' split at h
        all_goals cases h
        exact .inr ⟨len, payload, _, rfl, rfl, by omega, by omega, DebugStr.ofBytes_eq_some.1 ‹_›, rfl, rfl⟩

/-- Every way DECODE can answer `Malformed` (R91, R229). -/
theorem decode_malformed {cfg : Codec} {F : Family} {s : Bytes} {r : Reason}
    (h : decode cfg F s = .malformed r) :
    (r = .badTag ∧ ∃ t rest, s = t :: rest ∧ lookup cfg F t = .none) ∨
    (∃ len payload, F = .report ∧ s = 0x44 :: len :: payload ∧
      ((r = .badLength ∧ cfg.debugMaxLen < len.toNat) ∨
        (r = .badUtf8 ∧ len.toNat ≤ cfg.debugMaxLen ∧ len.toNat ≤ payload.length ∧
          utf8Valid (payload.take len.toNat) = false))) := by
  cases s with
  | nil => simp [decode] at h
  | cons t rest =>
    cases hl : lookup cfg F t with
    | none =>
      rw [decode_cons_none rest hl, DecodeOutcome.malformed.injEq] at h
      exact .inl ⟨h.symm, t, rest, rfl, hl⟩
    | fixed k v =>
      rw [decode_cons_fixed rest hl] at h
      split at h <;> cases h
    | lengthPrefixed =>
      obtain ⟨rfl, rfl⟩ := lookup_lengthPrefixed.1 hl
      cases rest with
      | nil => rw [decode_debug_tag] at h; cases h
      | cons len payload =>
        refine .inr ⟨len, payload, rfl, rfl, ?_⟩
        rw [decode_cons_debug] at h
        repeat' split at h
        all_goals cases h
        · exact .inl ⟨rfl, by assumption⟩
        · refine .inr ⟨rfl, by omega, by omega, DebugStr.ofBytes_eq_none.1 ‹_› ?_⟩
          simp only [List.length_take]
          omega

end Sys2Proof
end

