-- ==== Sys2Proof/Laws/State.lean ====
section
/-! SUPPORT. One lemma per field per update of the state, so that no proof unfolds a record update. -/

namespace Sys2Proof.Machine.State

variable {d : Nat} (s : State d) (F G : Family) (b : Bytes) (m : Instr d) (r : Response d) (t : Txn d)

@[simp] theorem setBuf_outq : (s.setBuf F b).outq = s.outq := by cases F <;> rfl
@[simp] theorem setBuf_resp : (s.setBuf F b).resp = s.resp := by cases F <;> rfl
@[simp] theorem setBuf_pending : (s.setBuf F b).pending = s.pending := by cases F <;> rfl
@[simp] theorem setBuf_buf_self : (s.setBuf F b).buf F = some b := by cases F <;> rfl
theorem setBuf_buf_other {F G : Family} (h : G ≠ F) : (s.setBuf F b).buf G = s.buf G := by
  cases F <;> cases G <;> first | rfl | exact absurd rfl h

@[simp] theorem clearOut_cmd : s.clearOut.cmd = s.cmd := rfl
@[simp] theorem clearOut_rep : s.clearOut.rep = s.rep := rfl
@[simp] theorem clearOut_outq : s.clearOut.outq = [] := rfl
@[simp] theorem clearOut_resp : s.clearOut.resp = s.resp := rfl
@[simp] theorem clearOut_pending : s.clearOut.pending = s.pending := rfl
@[simp] theorem clearOut_buf : s.clearOut.buf F = s.buf F := by cases F <;> rfl

@[simp] theorem pushOut_cmd : (s.pushOut m).cmd = s.cmd := rfl
@[simp] theorem pushOut_rep : (s.pushOut m).rep = s.rep := rfl
@[simp] theorem pushOut_outq : (s.pushOut m).outq = s.outq ++ [m] := rfl
@[simp] theorem pushOut_resp : (s.pushOut m).resp = s.resp := rfl
@[simp] theorem pushOut_pending : (s.pushOut m).pending = s.pending := rfl
@[simp] theorem pushOut_buf : (s.pushOut m).buf F = s.buf F := by cases F <;> rfl

@[simp] theorem respond_cmd : (s.respond r).cmd = s.cmd := rfl
@[simp] theorem respond_rep : (s.respond r).rep = s.rep := rfl
@[simp] theorem respond_outq : (s.respond r).outq = [] := rfl
@[simp] theorem respond_resp : (s.respond r).resp = some r := rfl
@[simp] theorem respond_pending : (s.respond r).pending = s.pending := rfl
@[simp] theorem respond_buf : (s.respond r).buf F = s.buf F := by cases F <;> rfl

@[simp] theorem post_cmd : (s.post t).cmd = s.cmd := rfl
@[simp] theorem post_rep : (s.post t).rep = s.rep := rfl
@[simp] theorem post_outq : (s.post t).outq = s.outq := rfl
@[simp] theorem post_resp : (s.post t).resp = s.resp := rfl
@[simp] theorem post_pending : (s.post t).pending = t :: s.pending := rfl
@[simp] theorem post_buf : (s.post t).buf F = s.buf F := by cases F <;> rfl

theorem buf_command : s.buf .command = s.cmd := rfl
theorem buf_report : s.buf .report = s.rep := rfl

/-- A later content replaces an earlier one. -/
@[simp] theorem setBuf_setBuf (b' : Bytes) : (s.setBuf F b).setBuf F b' = s.setBuf F b' := by
  cases F <;> rfl
/-- Giving a Reader the content it has changes nothing. -/
theorem setBuf_same {s : State d} {F : Family} {b : Bytes} (h : s.buf F = some b) : s.setBuf F b = s := by
  rcases s with ⟨c, e, o, r, q⟩
  cases F <;> simp_all [setBuf, buf]
@[simp] theorem setBuf_pushOut : (s.pushOut m).setBuf F b = (s.setBuf F b).pushOut m := by cases F <;> rfl
@[simp] theorem setBuf_clearOut : s.clearOut.setBuf F b = (s.setBuf F b).clearOut := by cases F <;> rfl
@[simp] theorem respond_pushOut : (s.pushOut m).respond r = s.respond r := rfl
@[simp] theorem respond_clearOut : s.clearOut.respond r = s.respond r := rfl
@[simp] theorem respond_respond (r' : Response d) : (s.respond r).respond r' = s.respond r' := rfl

end Sys2Proof.Machine.State
end

