-- ==== Sys2Proof/Laws/Ops.lean ====
section
/-! SUPPORT. What each shared operation can do, said once. -/

namespace Sys2Proof.Machine

variable {d : Nat}

/-- Append keeps the buffer's form where the capacity check passed (R46, R183). -/
theorem append_length_le {b input : Bytes} {cap : Nat} (h : b.length + input.length ≤ cap) :
    (append b input).length ≤ cap := by
  simpa [append] using h

/-- Drain keeps the buffer's form (R46). -/
theorem drain_length_le {b : Bytes} {cap : Nat} (n : Nat) (h : b.length ≤ cap) :
    (drain n b).length ≤ cap := by
  simp only [drain, List.length_drop]
  omega

/-- Draining in two parts is draining at once. -/
theorem drain_drain (k n : Nat) (b : Bytes) : drain k (drain n b) = drain (n + k) b := by
  simp [drain]

/-- A message that can be constructed is a message value under every configuration (R100). -/
theorem wellFormed_of_constructible {cfg : Codec} {m : Instr cfg.debugMaxLen} (h : m.constructible cfg = true) :
    m.wellFormed = true := by
  cases m <;> first | rfl | exact h

/-- Every instruction is a delivery of its whole frame in its own family. -/
theorem execAt_eq_deliver (i : Instr d) (s : State d) : execAt i s = deliver i.family i.wireSize i s := by
  cases i <;> rfl

/-- exec is execAt of the build that the host's interface runs. -/
theorem exec_eq_execAt (i : Instr) (s : State) : exec i s = execAt i s := by
  cases i <;> rfl

/-- The only way a delivery answers a next state. -/
theorem deliver_next {F : Family} {n : Nat} {m : Instr d} {s t : State d} (h : deliver F n m s = .next t) :
    m.wellFormed = true ∧ ∃ b, s.buf F = some b ∧ t = (s.setBuf F (drain n b)).pushOut m := by
  unfold deliver at h
  split at h
  · split at h <;> cases h
    exact ⟨by assumption, _, by assumption, rfl⟩
  · cases h

/-- A delivery to a Reader that exists, of a message value. -/
theorem deliver_of_reader {F : Family} {n : Nat} {m : Instr d} {s : State d} {b : Bytes}
    (hm : m.wellFormed = true) (hb : s.buf F = some b) :
    deliver F n m s = .next ((s.setBuf F (drain n b)).pushOut m) := by
  simp [deliver, hm, hb]

/-- Going on from a next state is the only way to reach one. -/
theorem andThen_next {o : Host.Outcome (State d) Fault Refusal}
    {k : State d → Host.Outcome (State d) Fault Refusal} {t : State d} (h : andThen o k = .next t) :
    ∃ u, o = .next u ∧ k u = .next t := by
  cases o with
  | next u => exact ⟨u, rfl, h⟩
  | fault r => cases r
  | refused r => cases h

@[simp] theorem andThen_of_next (s : State d) (k : State d → Host.Outcome (State d) Fault Refusal) :
    andThen (.next s) k = k s := rfl

theorem raiseFault_eq (info : FaultInfo) (s : State d) : raiseFault info s = s.respond (.fault info) := rfl

theorem returnOut_eq (s : State d) : returnOut s = s.respond (.messages s.outq) := rfl

end Sys2Proof.Machine
end

