-- ==== Sys2Proof/Laws/PerInstr.lean ====
section
/-! SUPPORT. For every instruction, said per constructor: its frame is as long as the frame formats of
30_encoding.md R64 and R65 say. -/

namespace Sys2Proof.Laws.FrameLength

/-- A configuration of the `DEBUG_MAX_LEN` of the machine that the host's interface runs. -/
def config (tag : Option Byte) : Codec := { debugMaxLen := Machine.built.codec.debugMaxLen, bootloadTag := tag }

/-- The encoder writes as many bytes as the instruction's frame format has (R12, R98). -/
def Statement (i : Instr) : Prop :=
  ∀ tag : Option Byte, i.constructible (config tag) = true → (encode (config tag) i).length = i.wireSize

theorem powerCycler (slot : Byte) (state : Bool) : Statement (.powerCycler slot state) := fun _ _ => rfl
theorem brightness (target : Byte) (value : Word) : Statement (.brightness target value) := fun _ _ => rfl
theorem temperature (target : Byte) (value : Word) : Statement (.temperature target value) := fun _ _ => rfl
theorem led (r g b pulse : Byte) : Statement (.led r g b pulse) := fun _ _ => rfl
theorem bootload : Statement .bootload := by
  intro tag h
  obtain ⟨t, ht⟩ := Option.isSome_iff_exists.1 h
  simp [encode, ht, Instr.wireSize]
theorem heartbeat : Statement .heartbeat := fun _ _ => rfl
theorem dialValue (diff : Int) : Statement (.dialValue diff) := fun _ _ => rfl
theorem press : Statement .press := fun _ _ => rfl
theorem longPress : Statement .longPress := fun _ _ => rfl
theorem emergencyOff : Statement .emergencyOff := fun _ _ => rfl
theorem error (code : Word) : Statement (.error code) := fun _ _ => rfl
theorem debug (message : DebugStr Machine.built.codec.debugMaxLen) : Statement (.debug message) := by
  intro tag _
  simp only [encode, Instr.wireSize, List.length_cons]
  omega

end Sys2Proof.Laws.FrameLength
end

