-- ==== Sys2Proof/Laws/Reader.lean ====
section
/-! SUPPORT. What a step and each transaction can do, said once, and the small lemmas of the words of
Safety.lean. -/

namespace Sys2Proof

open Machine

/-! The variants `build` gives. -/

theorem build_variant {n : Nat} (v : FixedVariant) (s : Bytes) : (build (n := n) v s).variant = .fixed v := by
  cases v <;> rfl

theorem build_wireSize {n : Nat} (v : FixedVariant) (s : Bytes) : (build (n := n) v s).wireSize = v.size := by
  cases v <;> rfl

/-! The greedy parse. -/

theorem parseUpTo_incomplete {cfg : Codec} {F : Family} {S : Bytes} (k : Nat)
    (h : decode cfg F S = .incomplete) : parseUpTo cfg F k S = ([], S) := by
  cases k <;> simp [parseUpTo, h]

theorem parseUpTo_malformed {cfg : Codec} {F : Family} {S : Bytes} {r : Reason} (k : Nat)
    (h : decode cfg F S = .malformed r) : parseUpTo cfg F k S = ([], S) := by
  cases k <;> simp [parseUpTo, h]

theorem parseUpTo_decoded {cfg : Codec} {F : Family} {S : Bytes} {m : Instr cfg.debugMaxLen} {n : Nat} (k : Nat)
    (h : decode cfg F S = .decoded m n) :
    parseUpTo cfg F (k + 1) S = (m :: (parseUpTo cfg F k (S.drop n)).1, (parseUpTo cfg F k (S.drop n)).2) := by
  simp [parseUpTo, h]

theorem parseUpTo_length (cfg : Codec) (F : Family) (k : Nat) (S : Bytes) :
    (parseUpTo cfg F k S).1.length ≤ k := by
  induction k generalizing S with
  | zero => simp [parseUpTo]
  | succ k ih => simp only [parseUpTo]; split <;> simp [ih]

/-- A parse that ends below its bound ends at a front that holds no whole frame. -/
theorem parseUpTo_settled (cfg : Codec) (F : Family) (k : Nat) (S : Bytes)
    (h : (parseUpTo cfg F k S).1.length < k) : Settled cfg F (parseUpTo cfg F k S).2 := by
  induction k generalizing S with
  | zero => simp at h
  | succ k ih =>
    simp only [parseUpTo] at h ⊢
    split at h
    · exact .inl ‹_›
    · exact .inr ⟨_, ‹_›⟩
    · exact ih _ (by simpa using h)

/-! The invariant. -/

theorem readerOk_iff {p : Params} {F : Family} {buf : Option Bytes} : readerOk p F buf = true ↔
    ∀ b, buf = some b → p.wellFormed F = true ∧ b.length ≤ (p.sizes F).cap := by
  cases buf <;> simp [readerOk]

theorem Machine.State.inv_iff {p : Params} {s : StateOf p} : s.Inv p = true ↔
    (∀ F b, s.buf F = some b → p.wellFormed F = true ∧ b.length ≤ (p.sizes F).cap) ∧
    s.outq = [] ∧ s.respOk p = true := by
  simp only [State.Inv, Bool.and_eq_true, readerOk_iff, List.isEmpty_iff, and_assoc]
  constructor
  · rintro ⟨h1, h2, h3⟩
    exact ⟨fun F => by cases F; exacts [h1, h2], h3⟩
  · rintro ⟨h1, h3⟩
    exact ⟨h1 .command, h1 .report, h3⟩

/-! A step and its request. -/

namespace Machine

/-- A step is the step relation under the parameters the machine is built with (R20). -/
theorem step_eq (s : State) : step s = stepWith built s := rfl

/-- A step performs the request that the host issued last, on the state without it. -/
theorem stepWith_post (p : Params) (s : StateOf p) (t : TxnOf p) : stepWith p (s.post t) = request p t s := rfl

theorem request_of_wellFormed {p : Params} {t : TxnOf p} {s : StateOf p}
    (h : p.wellFormed t.family = true) : request p t s = perform p t s := by
  simp [request, h]

theorem request_next {p : Params} {s s' : StateOf p} {t : TxnOf p} (h : request p t s = .next s') :
    p.wellFormed t.family = true ∧ perform p t s = .next s' := by
  rw [request] at h
  split at h
  · exact ⟨‹_›, h⟩
  · cases h

/-- A step is idle, or performs the first request. -/
theorem stepWith_next {p : Params} {s t : StateOf p} (h : stepWith p s = .next t) : (s.pending = [] ∧ t = s) ∨
    ∃ u rest, s.pending = u :: rest ∧ request p u { s with pending := rest } = .next t := by
  unfold stepWith at h
  split at h
  · cases h; exact .inl ⟨‹_›, rfl⟩
  · exact .inr ⟨_, _, ‹_›, h⟩

/-- FEED and FEED_BYTE, with the batch and the bound each gives FEED_CORE (R182, R188). -/
def FeedsAs (p : Params) (F : Family) (t : TxnOf p) (input : Bytes) (bound : Nat) : Prop :=
  (t = .feed F input ∧ bound = (p.sizes F).outqCap) ∨ ∃ x, input = [x] ∧ t = .feedByte F x ∧ bound = 1

theorem FeedsAs.family {p : Params} {F : Family} {t : TxnOf p} {input : Bytes} {bound : Nat}
    (h : FeedsAs p F t input bound) : t.family = F := by
  rcases h with ⟨rfl, -⟩ | ⟨x, -, rfl, -⟩ <;> rfl

theorem FeedsAs.perform {p : Params} {F : Family} {t : TxnOf p} {input : Bytes} {bound : Nat}
    (h : FeedsAs p F t input bound) (s : StateOf p) : Machine.perform p t s = feedCore p F input bound s := by
  rcases h with ⟨rfl, rfl⟩ | ⟨x, rfl, rfl, rfl⟩ <;> rfl

/-- The two ways FEED_CORE goes on (R182, R183). -/
theorem feedCore_full {p : Params} {F : Family} {s : StateOf p} {b input : Bytes} (bound : Nat)
    (hb : s.buf F = some b) (h : (p.sizes F).cap < b.length + input.length) : feedCore p F input bound s =
      .next (s.respond (.fault { kind := .bufferFull, reason := none, discarded := 0 })) := by
  simp [feedCore, hb, h, raiseFault]

theorem feedCore_fits {p : Params} {F : Family} {s : StateOf p} {b input : Bytes} (bound : Nat)
    (hb : s.buf F = some b) (h : b.length + input.length ≤ (p.sizes F).cap) :
    feedCore p F input bound s = feedLoop p.codec F bound ((s.setBuf F (b ++ input)).clearOut) := by
  simp [feedCore, hb, append, Nat.not_lt.2 h]

/-- Everything a request's next state can be, but for what FEED_CORE does. -/
theorem perform_next {p : Params} {s s' : StateOf p} {t : TxnOf p} (h : perform p t s = .next s') :
    (∃ F, t = .new F ∧ s' = (s.setBuf F []).respond .created) ∨
    (∃ F b, t = .reset F ∧ s.buf F = some b ∧ s' = (s.setBuf F []).respond .ok) ∨
    (∃ F input bound, FeedsAs p F t input bound ∧ feedCore p F input bound s = .next s') ∨
    (∃ F n b, t = .discard F n ∧ s.buf F = some b ∧
      s' = (s.setBuf F (drain (min n b.length) b)).respond (.dropped (min n b.length))) ∨
    (∃ F slice, t = .decode F slice ∧ s' = s.respond (.outcome (decode p.codec F slice))) ∨
    (∃ m, t = .encode m ∧ m.constructible p.codec = true ∧
      s' = s.respond (.frame (encode p.codec m))) := by
  cases t with
  | new F => cases h; exact .inl ⟨F, rfl, rfl⟩
  | reset F =>
    simp only [perform, resetReader] at h
    split at h <;> cases h
    exact .inr (.inl ⟨F, _, rfl, ‹_›, rfl⟩)
  | feed F input => exact .inr (.inr (.inl ⟨F, input, _, .inl ⟨rfl, rfl⟩, h⟩))
  | feedByte F x => exact .inr (.inr (.inl ⟨F, [x], 1, .inr ⟨x, rfl, rfl, rfl⟩, h⟩))
  | discard F n =>
    simp only [perform, discardFront] at h
    split at h <;> cases h
    exact .inr (.inr (.inr (.inl ⟨F, n, _, rfl, ‹_›, rfl⟩)))
  | decode F slice => cases h; exact .inr (.inr (.inr (.inr (.inl ⟨F, slice, rfl, rfl⟩))))
  | encode m =>
    simp only [perform, encodeMessage] at h
    split at h <;> cases h
    exact .inr (.inr (.inr (.inr (.inr ⟨m, rfl, ‹_›, rfl⟩))))

end Machine

end Sys2Proof
end

