-- ==== Sys2Proof/Tests/Slice0.lean ====
section
/-! SUPPORT. Small checks on fixed values. The expected values are those of 95_test_vectors.md (its vector
numbers stand in the docstrings), of the frame formats of 30_encoding.md, or worked out by hand from the
rule named. The last part gives, for every statement with hypotheses, values that meet them. -/

namespace Sys2Proof.Tests

open Sys2Proof Sys2Proof.Machine

/-! Helpers. -/

/-- Both Readers exist, that of `F` holding `b`. -/
def holding (F : Family) (b : Bytes) : State := State.reset.setBuf F b

/-- A machine with no text in its Debug reports, and one whose Command configuration is ill formed. -/
def noText : Params :=
  { codec := { debugMaxLen := 0, bootloadTag := none }, cmd := Params.tc.cmd, rep := { cap := 3, outqCap := 1 } }
def smallCap : Params := { Params.tc with cmd := { cap := 4, outqCap := 4 } }

/-- The `DebugStr` of some bytes under `TC`, of "hi", and of the longest under `TC` and `TD`. -/
def str (b : Bytes) (hf : b.length ≤ 254) (hv : utf8Valid b = true) : DebugStr 254 :=
  { bytes := b, fits := hf, valid := hv }
def hi : DebugStr 254 := str [0x68, 0x69] (by decide) (by decide)
def longestTC : DebugStr 254 :=
  { bytes := List.replicate 254 0x41, fits := Nat.le_of_eq List.length_replicate, valid := by decide +kernel }
def longestTD : DebugStr 255 :=
  { bytes := List.replicate 255 0x41, fits := Nat.le_of_eq List.length_replicate, valid := by decide +kernel }

/-- The response of one transaction and the buffer after it. -/
def ask (F : Family) (p : Params) (b : Bytes) (t : TxnOf p) : Option (Response p.codec.debugMaxLen × Bytes) :=
  match stepWith p ((State.cleared.setBuf F b).post t) with
  | .next s =>
    match s.resp, s.buf F with
    | some r, some b' => some (r, b')
    | _, _ => none
  | .fault _ => none
  | .refused _ => none

/-- How one transaction is refused. -/
def refusal (p : Params) (s : StateOf p) (t : TxnOf p) : Option Refusal :=
  match stepWith p (s.post t) with
  | .next _ => none
  | .fault r => nomatch r
  | .refused r => some r

/-- The output queue and the buffer of `F` after one instruction. -/
def run (i : Instr) (F : Family) (b : Bytes) : Option (List Instr × Bytes) :=
  match exec i (holding F b) with
  | .next s =>
    match s.buf F with
    | some b' => some (s.outq, b')
    | none => none
  | .fault _ => none
  | .refused _ => none

/-- What the host gets from the table word: the response of the next step after reset. -/
def probe (nbits w : Nat) : Option (Response 254) :=
  match step (State.reset.withFetchWord nbits w) with
  | .next s => s.resp
  | .fault _ => none
  | .refused _ => none

/-! Well-formedness: each check refuses a term. -/

/-- V-CF: `CAP`. -/
theorem test_wf_cap : smallCap.wellFormed .command = false ∧ Params.t5.wellFormed .command = true ∧
    Params.wellFormed { Params.tc with rep := { cap := 255, outqCap := 4 } } .report = false ∧
    noText.wellFormed .report = true := by decide

/-- R8, the other clauses. -/
theorem test_wf_clauses : Codec.wellFormed { Codec.tc with debugMaxLen := 256 } = false ∧
    Codec.wellFormed { Codec.tc with bootloadTag := some 0x44 } = false ∧
    Params.wellFormed { Params.tc with cmd := { cap := 256, outqCap := 0 } } .command = false := by decide

/-- R9: the range of `i8`. -/
theorem test_wf_i8 : Instr.wellFormed (.dialValue 128 : Instr) = false ∧
    Instr.wellFormed (.dialValue (-129) : Instr) = false ∧
    Instr.constructible Codec.tc .bootload = false := by decide

/-- R31: each of the two conditions of a `DebugStr` refuses a byte string. -/
theorem test_wf_debug : DebugStr.ofBytes 254 (List.replicate 255 0x41) = none ∧
    DebugStr.ofBytes 254 (List.replicate 254 0x41) = some longestTC ∧
    DebugStr.ofBytes 254 [0xFF] = none := by decide +kernel

/-- R31: the bound in the type is the build's `DEBUG_MAX_LEN`; 255 bytes are a message of `TD` and none of `TC`,
and "hi" is a message of a build with 10. -/
theorem test_wf_debug_build : Instr.constructible Codec.td (.debug longestTD) = true ∧
    Instr.constructible Codec.tc (.debug longestTC) = true ∧
    (∀ d : DebugStr Codec.tc.debugMaxLen, d.bytes ≠ longestTD.bytes) ∧
    decode { Codec.tc with debugMaxLen := 10 } .report [0x44, 0x02, 0x68, 0x69] =
      .decoded (.debug { bytes := [0x68, 0x69], fits := by decide, valid := by decide }) 4 := by
  refine ⟨by decide, by decide, fun d h => ?_, by decide⟩
  have hd : d.bytes.length ≤ 254 := d.fits
  rw [h, longestTD, List.length_replicate] at hd
  omega

/-! DECODE, on frames written out from 30_encoding.md. -/

/-- V-CD 4 to 7. -/
theorem test_decode_powerCycler :
    decode Codec.tc .command [0x41, 0x03, 0x00] = .decoded (.powerCycler 3 false) 3 ∧
    decode Codec.tc .command [0x41, 0x03, 0xFF] = .decoded (.powerCycler 3 true) 3 ∧
    decode Codec.tc .command [0x41, 0xFF, 0x02, 0x44] = .decoded (.powerCycler 255 true) 3 := by decide

/-- V-CD 9 to 12. -/
theorem test_decode_brightness :
    decode Codec.tc .command [0x42, 0x01, 0x12, 0x34] = .decoded (.brightness 1 4660) 4 ∧
    decode Codec.tc .command [0x42, 0x00, 0x01, 0x00] = .decoded (.brightness 0 256) 4 := by decide

/-- V-CD 13, 14. -/
theorem test_decode_temperature :
    decode Codec.tc .command [0x43, 0x00, 0x01, 0x2C] = .decoded (.temperature 0 300) 4 ∧
    decode Codec.tc .command [0x43, 0x07, 0x80, 0x00] = .decoded (.temperature 7 32768) 4 := by decide

/-- V-CD 16, 18, 19. -/
theorem test_decode_led :
    decode Codec.tc .command [0x44, 0xFF, 0x00, 0x10, 0x01] = .decoded (.led 255 0 16 1) 5 ∧
    decode Codec.tc .command [0x44, 0x02, 0x68, 0x69] = .incomplete := by decide

/-- V-CD 25 to 28. -/
theorem test_decode_bootload :
    decode Codec.tb .command [0xF0, 0x41] = .decoded .bootload 1 ∧
    decode Codec.tc .command [0xF0] = .malformed .badTag ∧
    decode Codec.tb .command [0x40] = .malformed .badTag := by decide

/-- V-RD 2. -/
theorem test_decode_heartbeat : decode Codec.tc .report [0x48] = .decoded .heartbeat 1 := by decide

/-- V-RD 4 to 9. -/
theorem test_decode_dialValue :
    decode Codec.tc .report [0x56, 0xFB, 0x50] = .decoded (.dialValue (-5)) 2 ∧
    decode Codec.tc .report [0x56, 0x7F] = .decoded (.dialValue 127) 2 ∧
    decode Codec.tc .report [0x56, 0x80] = .decoded (.dialValue (-128)) 2 := by decide

/-- V-RD 10. -/
theorem test_decode_press : decode Codec.tc .report [0x50] = .decoded .press 1 := by decide

/-- V-RD 11, 36. -/
theorem test_decode_longPress : decode Codec.tc .report [0x4C, 0x48] = .decoded .longPress 1 ∧
    decode Codec.tc .report [0x52] = .malformed .badTag := by decide

/-- V-RD 12. -/
theorem test_decode_emergencyOff : decode Codec.tc .report [0x58] = .decoded .emergencyOff 1 := by decide

/-- V-RD 13, 14. -/
theorem test_decode_error : decode Codec.tc .report [0x45, 0x01, 0x02] = .decoded (.error 258) 3 ∧
    decode Codec.tc .report [0x45, 0x01] = .incomplete := by decide

/-- V-RD 17, 20, 23 to 25, 28. -/
theorem test_decode_debug :
    decode Codec.tc .report [0x44, 0x00, 0x48] = .decoded (.debug (str [] (by decide) (by decide))) 2 ∧
    decode Codec.tc .report [0x44, 0x02, 0x68, 0x69, 0x48] = .decoded (.debug hi) 4 ∧
    decode Codec.tc .report [0x44, 0xFF] = .malformed .badLength ∧
    decode Codec.td .report [0x44, 0xFF] = .incomplete ∧
    decode Codec.tc .report [0x44, 0x01, 0xFF] = .malformed .badUtf8 ∧
    decode Codec.tc .report [0x44, 0x02, 0xC3] = .incomplete := by decide

/-- V-RD 26, 27, 29 to 34. -/
theorem test_utf8 : utf8Valid [0x80] = false ∧ utf8Valid [0xC3] = false ∧ utf8Valid [0xC3, 0xA9] = true ∧
    utf8Valid [0xC0, 0x80] = false ∧ utf8Valid [0xED, 0xA0, 0x80] = false ∧
    utf8Valid [0xF4, 0x90, 0x80, 0x80] = false ∧ utf8Valid [0xF0, 0x9F, 0x98, 0x80] = true ∧
    utf8Valid [0x00] = true := by decide

/-- The ends of the rows of R149's table. -/
theorem test_utf8_rows : utf8Valid [0xC1, 0xBF] = false ∧ utf8Valid [0xC2, 0x80] = true ∧
    utf8Valid [0xDF, 0xBF] = true ∧ utf8Valid [0xE0, 0x9F, 0xBF] = false ∧ utf8Valid [0xE0, 0xA0, 0x80] = true ∧
    utf8Valid [0xED, 0x9F, 0xBF] = true ∧ utf8Valid [0xEE, 0x80, 0x80] = true ∧
    utf8Valid [0xF0, 0x8F, 0xBF, 0xBF] = false ∧ utf8Valid [0xF4, 0x8F, 0xBF, 0xBF] = true ∧
    utf8Valid [0xF5, 0x80, 0x80, 0x80] = false ∧ utf8Valid [0x41, 0xE2, 0x82] = false := by decide

/-! ENCODE. -/

/-- V-CE 2, 3, 6, 8, 9. -/
theorem test_encode_command : encode Codec.tc (.powerCycler 255 true) = [0x41, 0xFF, 0x01] ∧
    encode Codec.tc (.brightness 1 0x1234) = [0x42, 0x01, 0x12, 0x34] ∧
    encode Codec.tc (.temperature 0 300) = [0x43, 0x00, 0x01, 0x2C] ∧
    encode Codec.tc (.led 255 0 16 1) = [0x44, 0xFF, 0x00, 0x10, 0x01] ∧
    encode Codec.tb .bootload = [0xF0] := by decide

/-- V-RE 1 to 7, 9, 12. -/
theorem test_encode_report : encode Codec.tc .heartbeat = [0x48] ∧
    encode Codec.tc (.dialValue (-5)) = [0x56, 0xFB] ∧ encode Codec.tc (.dialValue (-128)) = [0x56, 0x80] ∧
    encode Codec.tc (.dialValue 127) = [0x56, 0x7F] ∧ encode Codec.tc .press = [0x50] ∧
    encode Codec.tc .longPress = [0x4C] ∧ encode Codec.tc .emergencyOff = [0x58] ∧
    encode Codec.tc (.error 0x0102) = [0x45, 0x01, 0x02] ∧
    encode Codec.tc (.debug hi) = [0x44, 0x02, 0x68, 0x69] := by decide

/-! Table words: the first byte is bits 7..0. -/

theorem test_word_command : decodeTableWord 24 0x010341 = some (.powerCycler 3 true) ∧
    decodeTableWord 32 0x34120142 = some (.brightness 1 0x1234) ∧
    decodeTableWord 32 0x2C010043 = some (.temperature 0 300) ∧
    decodeTableWord 40 0x011000FF44 = some (.led 255 0 16 1) ∧
    decodeTableWord 8 0xF0 = none := by decide +kernel

theorem test_word_report : decodeTableWord 8 0x48 = some .heartbeat ∧
    decodeTableWord 16 0xFB56 = some (.dialValue (-5)) ∧ decodeTableWord 8 0x50 = some .press ∧
    decodeTableWord 8 0x4C = some .longPress ∧ decodeTableWord 8 0x58 = some .emergencyOff ∧
    decodeTableWord 24 0x020145 = some (.error 0x0102) ∧
    decodeTableWord 16 0x0044 = some (.debug (str [] (by decide) (by decide))) ∧
    decodeTableWord 16 0x0344 = some (.debug (str [0, 0, 0] (by decide) (by decide))) := by decide +kernel

/-- The next step after reset runs the placed word. -/
theorem test_probe_command : probe 24 0x010341 = some (.messages [.powerCycler 3 true]) ∧
    probe 40 0x011000FF44 = some (.messages [.led 255 0 16 1]) := by decide +kernel

theorem test_probe_report : probe 8 0x48 = some (.messages [.heartbeat]) ∧
    probe 16 0x0344 = some (.messages [.debug (str [0, 0, 0] (by decide) (by decide))]) ∧
    probe 8 0xF0 = some (.fault { kind := .malformed, reason := some .badTag, discarded := 0 }) := by
  decide +kernel

/-! Instructions: R184, first case. -/

theorem test_run_command :
    run (.powerCycler 1 true) .command [0x41, 1, 1, 0x42] = some ([.powerCycler 1 true], [0x42]) ∧
    run (.brightness 1 2) .command [0x42, 1, 0, 2, 9] = some ([.brightness 1 2], [9]) ∧
    run (.temperature 1 2) .command [0x43, 1, 0, 2] = some ([.temperature 1 2], []) ∧
    run (.led 1 2 3 4) .command [0x44, 1, 2, 3, 4, 5] = some ([.led 1 2 3 4], [5]) ∧
    run .bootload .command [0xF0, 0x41] = some ([.bootload], [0x41]) := by decide

theorem test_run_report :
    run .heartbeat .report [0x48, 0x50] = some ([.heartbeat], [0x50]) ∧
    run (.dialValue (-5)) .report [0x56, 0xFB, 0x50] = some ([.dialValue (-5)], [0x50]) ∧
    run .press .report [0x50] = some ([.press], []) ∧
    run .longPress .report [0x4C, 0x48] = some ([.longPress], [0x48]) ∧
    run .emergencyOff .report [0x58] = some ([.emergencyOff], []) ∧
    run (.error 7) .report [0x45, 0, 7, 0x48] = some ([.error 7], [0x48]) ∧
    run (.debug hi) .report [0x44, 2, 0x68, 0x69, 0x48] = some ([.debug hi], [0x48]) ∧
    run (.dialValue 128) .report [0x56, 0x80] = none := by decide

/-! Transactions. -/

/-- V-RN 2, 4 to 7. -/
theorem test_reset_discard : ask .report Params.tc [0x00, 0x41] (.reset .report) = some (.ok, []) ∧
    ask .report Params.tc [0x00, 0x48] (.discard .report 1) = some (.dropped 1, [0x48]) ∧
    ask .report Params.tc [0x44, 0x02] (.discard .report 10) = some (.dropped 2, []) ∧
    ask .report Params.tc [0x44, 0x02] (.discard .report 0) = some (.dropped 0, [0x44, 0x02]) ∧
    ask .report Params.tc [] (.discard .report 3) = some (.dropped 0, []) := by decide

/-- V-FD 1, 3, 5, 6. -/
theorem test_feed_messages : ask .report Params.tc [] (.feed .report []) = some (.messages [], []) ∧
    ask .report Params.tc [0x56] (.feed .report [0xFB, 0x50]) = some (.messages [.dialValue (-5), .press], []) ∧
    ask .report Params.tc [] (.feed .report (List.replicate 6 0x48)) =
      some (.messages (List.replicate 4 .heartbeat), [0x48, 0x48]) ∧
    ask .report Params.tc [0x48, 0x48] (.feed .report []) =
      some (.messages [.heartbeat, .heartbeat], []) := by decide

/-- V-FD 7, 9, 12, 15, 16. -/
theorem test_feed_malformed :
    ask .report Params.tc [] (.feed .report [0x48, 0x48, 0x00, 0x48]) =
      some (.fault { kind := .malformed, reason := some .badTag, discarded := 2 }, [0x00, 0x48]) ∧
    ask .report Params.tc [] (.feed .report [0x48, 0x48, 0x48, 0x48, 0x00]) =
      some (.messages (List.replicate 4 .heartbeat), [0x00]) ∧
    ask .report Params.tc [] (.feed .report [0x44, 0xFF]) =
      some (.fault { kind := .malformed, reason := some .badLength, discarded := 0 }, [0x44, 0xFF]) ∧
    ask .report Params.tc [0x44, 0x02, 0x68] (.feed .report [0xFF]) =
      some (.fault { kind := .malformed, reason := some .badUtf8, discarded := 0 }, [0x44, 0x02, 0x68, 0xFF]) ∧
    ask .report Params.tc [] (.feed .report [0x50, 0x44, 0x01, 0x80]) =
      some (.fault { kind := .malformed, reason := some .badUtf8, discarded := 1 }, [0x44, 0x01, 0x80]) := by
  decide

/-- V-FC 1, 2, 4, 5. -/
theorem test_feed_command :
    ask .command Params.tc [] (.feed .command [0x41, 0x01, 0x01, 0x42, 0x00]) =
      some (.messages [.powerCycler 1 true], [0x42, 0x00]) ∧
    ask .command Params.tc [0x42, 0x00] (.feed .command [0x12, 0x34, 0x44, 0x01, 0x02, 0x03, 0x04]) =
      some (.messages [.brightness 0 4660, .led 1 2 3 4], []) ∧
    ask .command Params.tc [] (.feed .command [0x44, 0x02, 0x68, 0x69]) =
      some (.messages [], [0x44, 0x02, 0x68, 0x69]) ∧
    ask .command Params.tb [] (.feed .command [0xF0, 0x41, 0x00, 0x00]) =
      some (.messages [.bootload, .powerCycler 0 false], []) := by decide

/-- V-FB 2, 4, 6. -/
theorem test_feedByte : ask .report Params.tc [0x56] (.feedByte .report 0xFB) =
      some (.messages [.dialValue (-5)], []) ∧
    ask .report Params.tc [0x48, 0x48] (.feedByte .report 0x50) =
      some (.messages [.heartbeat], [0x48, 0x50]) ∧
    ask .report Params.tc [] (.feedByte .report 0x00) =
      some (.fault { kind := .malformed, reason := some .badTag, discarded := 0 }, [0x00]) := by decide

/-- V-BF 9, 10. -/
theorem test_bufferFull : ask .command Params.t5 [0x44, 1, 2, 3] (.feed .command [4, 0x41]) =
      some (.fault { kind := .bufferFull, reason := none, discarded := 0 }, [0x44, 1, 2, 3]) ∧
    ask .command Params.t5 [0x44, 1, 2, 3] (.feed .command [4]) = some (.messages [.led 1 2 3 4], []) := by
  decide

/-- V-BF 1, 4: the edge of `CAP` under `TC`. -/
theorem test_bufferFull_edge : ask .report Params.tc [] (.feed .report (List.replicate 257 0x48)) =
      some (.fault { kind := .bufferFull, reason := none, discarded := 0 }, []) ∧
    ask .report Params.tc (0x44 :: 0xFE :: List.replicate 200 0x41) (.feed .report (List.replicate 54 0x41)) =
      some (.messages [.debug longestTC], []) := by decide +kernel

/-- V-CE 10, R252, R8, R100: the refusals. -/
theorem test_refusals : refusal Params.tc State.reset (.encode .bootload) = some .notConstructible ∧
    refusal Params.tc State.reset (.encode (.dialValue 128)) = some .notConstructible ∧
    refusal Params.tc State.powerOn (.feed .report []) = some .noReader ∧
    refusal Params.tc State.powerOn (.new .report) = none ∧
    refusal smallCap State.reset (.new .command) = some .illFormedConfig := by
  decide

/-- R93, R98: DECODE and ENCODE as transactions leave the Reader alone. -/
theorem test_codec_transactions : ask .report Params.tc [0x56] (.decode .report [0x48]) =
      some (.outcome (.decoded .heartbeat 1), [0x56]) ∧
    ask .report Params.tc [0x56] (.encode (.error 258)) = some (.frame [0x45, 0x01, 0x02], [0x56]) := by decide

/-- R221. -/
theorem test_codes :
    statusCodes (n := 254) (.fault { kind := .malformed, reason := some .badLength, discarded := 9 }) = (2, 2) ∧
    statusCodes (n := 254) (.messages []) = (0, 0) := by decide

/-- R238: a sink that accepts 1, then 0, then all bytes of a frame. -/
theorem test_transport : Sink.send [([0x56, 0xFB], [1, 0, 5]), ([0x50], [1])] { wire := [], unsent := [] } =
    some { wire := [0x56, 0xFB, 0x50], unsent := [] } := by decide

/-! Values that meet the hypotheses of the statements, clause by clause. -/

theorem test_witness_DispatchSelectsByTagAlone :
    (Codec.tb.bootloadTag = some 0xF0 ∧ (0xF0 : Byte) ∉ [(0x41 : Byte), 0x42, 0x43, 0x44]) ∧
    (Codec.tc.bootloadTag ≠ some 0x45 ∧ (0x45 : Byte) ∉ [(0x41 : Byte), 0x42, 0x43, 0x44]) ∧
    (0x41 : Byte) ∉ [(0x48 : Byte), 0x56, 0x50, 0x4C, 0x58, 0x45, 0x44] ∧
    Codec.tc.bootloadTag = Codec.td.bootloadTag ∧
    decode Codec.tc .report (0x56 :: [0xFB]) = .decoded (.dialValue (-5)) 2 ∧
    decode Codec.tc .report (0x44 :: [0x00]) = .decoded (.debug (str [] (by decide) (by decide))) 2 := by decide

theorem test_witness_UnlistedTagsAreBadTag :
    ((0x40 : Byte) ∉ [(0x41 : Byte), 0x42, 0x43, 0x44] ∧ Codec.tb.bootloadTag ≠ some 0x40) ∧
    (0x52 : Byte) ∉ [(0x48 : Byte), 0x56, 0x50, 0x4C, 0x58, 0x45, 0x44] := by decide

theorem test_witness_IllegalTagCounts : Codec.tc.bootloadTag = none ∧
    Codec.tb.bootloadTag = some 0xF0 ∧ bootloadTagOk Codec.tb = true := by decide

theorem test_witness_FramesCutShort : ([0x01, 0x12] : Bytes).length < 3 ∧ ([0x01] : Bytes).length < 2 ∧
    ([0xFF, 0x00, 0x10] : Bytes).length < 4 := by decide

theorem test_witness_DialValueFrameIsTwosComplement : (0x7F : Byte).toNat < 128 ∧ 128 ≤ (0x80 : Byte).toNat ∧
    ((-128 : Int) ≤ -128 ∧ (-128 : Int) ≤ 127) ∧ ((-128 : Int) ≤ 127 ∧ (127 : Int) ≤ 127) := by decide

theorem test_witness_BootloadFrame : (Codec.tb.bootloadTag = some 0xF0 ∧ bootloadTagOk Codec.tb = true) ∧
    Codec.tc.bootloadTag = none := by decide

theorem test_witness_DebugFrameChecksInOrder : Codec.tc.debugMaxLen < (0xFF : Byte).toNat ∧
    (0xFE : Byte).toNat ≤ Codec.tc.debugMaxLen ∧ ([0x68] : Bytes).length < (0x02 : Byte).toNat ∧
    ((0x02 : Byte).toNat ≤ ([0x68, 0x69] : Bytes).length ∧
      utf8Valid (([0x68, 0x69] : Bytes).take (0x02 : Byte).toNat) = true) ∧
    ((0x01 : Byte).toNat ≤ ([0x80] : Bytes).length ∧
      utf8Valid (([0x80] : Bytes).take (0x01 : Byte).toNat) = false) ∧
    255 ≤ Codec.td.debugMaxLen := by decide

theorem test_witness_LengthByteIsAuthoritative :
    decode Codec.tc .report (0x44 :: 0x02 :: [0x68, 0x69, 0x48]) = .decoded (.debug hi) 4 ∧
    (0xFE : Byte).toNat ≤ Codec.tc.debugMaxLen ∧
    (Codec.td.debugMaxLen ≤ 255 ∧ Instr.constructible Codec.td (.debug longestTD) = true) := by
  decide +kernel

/-- A scalar at each end of the table's rows, and its bytes. -/
theorem test_witness_Utf8ValidIsScalarSequences :
    ([0x7F, 0x80, 0x7FF, 0x800, 0xD7FF, 0xE000, 0xFFFF, 0x10000, 0x10FFFF].all
      fun c => utf8Valid (scalarBytes c)) = true ∧
    ([0xD800, 0xDFFF, 0x110000].all fun c => !utf8Valid (scalarBytes c)) = true ∧
    [0xC3, 0xA9, 0x68] = [0xE9, 0x68].flatMap scalarBytes := by decide

/-- For the statements whose hypothesis is one outcome of DECODE, DecodedFrameBounds, OutcomesArePrefixStable and
DecodeBuildsConstructibleMessages, and for the last one's `DebugStr` clauses, at the bound. -/
theorem test_witness_DecodeOutcomes :
    decode Codec.tc .command [0x44, 0x02, 0x68, 0x69, 0x48] = .decoded (.led 2 0x68 0x69 0x48) 5 ∧
    decode Codec.tc .command [0xFF, 0x41, 0x00, 0x00] = .malformed .badTag ∧
    (longestTC.bytes.length ≤ Codec.tc.debugMaxLen ∧ utf8Valid longestTC.bytes = true) ∧
    Instr.constructible Codec.tc (.debug longestTC) = true := by decide +kernel

theorem test_witness_MalformedReadsOnlyTheFront : decode Codec.tc .report [0x43, 0x00] = .malformed .badTag ∧
    decode Codec.tc .report [0x44, 0xFF, 0x00] = .malformed .badLength ∧
    decode Codec.tc .report [0x44, 0x01, 0x80, 0x00] = .malformed .badUtf8 := by decide

theorem test_witness_DecodeOfEncodeRoundTrips : ∃ m : Message Codec.tb .command, m.val = .bootload ∧
    Params.tb.wellFormed .command = true := ⟨⟨.bootload, by decide⟩, rfl, by decide⟩

theorem test_witness_ReencodingGivesTheFrameBack :
    (decode Codec.tc .command [0x44, 0x01, 0x02, 0x03, 0xFE] = .decoded (.led 1 2 3 0xFE) 5 ∧
      (Instr.led 1 2 3 0xFE : Instr).variant ≠ .fixed .powerCycler) ∧
    (decode Codec.tc .command [0x41, 0x05, 0x80] = .decoded (.powerCycler 5 true) 3 ∧
      (Instr.powerCycler 5 true : Instr).variant = .fixed .powerCycler) := by decide

theorem test_witness_EncodedFramesFitAndTagsDiffer : ∃ m m' : Message Codec.tc .report,
    Params.tc.wellFormed .report = true ∧ m.val ≠ m'.val ∧
    (encode Codec.tc m.val).head? = (encode Codec.tc m'.val).head? ∧
    ∃ d : DebugStr 254, d.bytes = [0x41, 0x42, 0x43] :=
  ⟨⟨.error 1, by decide⟩, ⟨.error 2, by decide⟩, by decide, by decide, by decide,
    str [0x41, 0x42, 0x43] (by decide) (by decide), rfl⟩

theorem test_witness_DecodeTransactionIsPure :
    built.wellFormed .report = true ∧
    (∃ t, stepWith Params.tc (State.reset.post (.decode .report [0x48])) = .next t) ∧
    (∃ t, stepWith { Params.tc with rep := noText.rep } (State.powerOn.post (.decode .command [0x48])) = .next t) :=
  ⟨by decide, ⟨_, rfl⟩, ⟨_, rfl⟩⟩

theorem test_witness_EncodeTransactionAnswersTheFrame :
    built.wellFormed .command = true ∧
    (Instr.led 1 2 3 4).constructible built.codec = true ∧
    Instr.bootload.constructible built.codec = false := by decide

theorem test_witness_FramesRun : State.reset.cmd = some [] ∧ State.reset.rep = some [] ∧
    (-128 : Int) ≤ -5 ∧ (-5 : Int) ≤ 127 := by decide

theorem test_witness_InstructionsChangeOnlyTheirReader :
    ∃ t, exec (.error 7) (holding .report [0x45, 0, 7, 0x48]) = .next t := ⟨_, rfl⟩

/-- Each case of InstructionsRunExactlyWhen. -/
theorem test_witness_InstructionsRunExactlyWhen :
    (∃ t, exec .press State.reset = .next t) ∧
    (∃ t, exec .bootload State.reset = .next t) ∧
    exec (.dialValue 128) State.reset = .refused .notConstructible ∧
    exec (.dialValue (-129)) State.reset = .refused .notConstructible ∧
    Instr.bootload.constructible Codec.tb = true ∧
    exec .press State.powerOn = .refused .noReader := ⟨⟨_, rfl⟩, ⟨_, rfl⟩, rfl, rfl, rfl, rfl⟩

theorem test_witness_StepRunsTheDecodedInstruction :
    (holding .report [0x56]).buf .report = some [0x56] ∧
    Params.tc.wellFormed .report = true ∧
    ([0x56] : Bytes).length + ([0xFB] : Bytes).length ≤ (Params.tc.sizes .report).cap ∧
    decode Params.tc.codec .report ([0x56] ++ [0xFB]) =
      .decoded (.dialValue (-5)) 2 := by decide

theorem test_witness_NewCreatesAnEmptyReader : Params.t5.wellFormed .command = true ∧
    Params.wellFormed { Params.tc with rep := { cap := 255, outqCap := 4 } } .report = false := by decide

/-- For the statements about a Reader that exists with a well-formed configuration: ResetClearsTheBufferOnly,
DiscardDropsAndClamps, and, within its capacity, DrainLoopEnds and DropOneResynchronises. -/
theorem test_witness_ReaderExists :
    (holding .report [0x00, 0x48]).buf .report = some [0x00, 0x48] ∧
    Params.tc.wellFormed .report = true ∧
    ([0x00, 0x48] : Bytes).length ≤ (Params.tc.sizes .report).cap := by decide

/-- Both sides of the capacity check, one byte apart. -/
theorem test_witness_BufferFullIsCheckedFirst :
    (holding .command [0x44, 1, 2, 3]).buf .command = some [0x44, 1, 2, 3] ∧
    Params.t5.wellFormed .command = true ∧
    (Params.t5.sizes .command).cap < ([0x44, 1, 2, 3] : Bytes).length + ([4, 5] : Bytes).length ∧
    (([0x44, 1, 2, 3] : Bytes).length + ([0] : Bytes).length ≤ (Params.t5.sizes .command).cap) ∧
    ∃ s', stepWith Params.t5 ((holding .command [0, 1, 2, 3]).post (.feed .command [0])) = .next s' ∧
      s'.resp = some (.fault { kind := .malformed, reason := some .badTag, discarded := 0 }) :=
  ⟨by decide, by decide, by decide, by decide, _, rfl, by decide⟩

theorem test_witness_DecodeLoopActsOnTheOutcome :
    (holding .report [0x56]).buf .report = some [0x56] ∧
    decode Codec.tc .report [0x56] = .incomplete ∧
    decode Codec.tc .report [0x00] = .malformed .badTag ∧
    decode Codec.tc .report [0x48, 0x00] = .decoded .heartbeat 1 := by decide

/-- A parse that reaches its bound, one that stops below it at an Incomplete front, one at a Malformed front. -/
theorem test_witness_FeedIsTheBoundedParse :
    (holding .report [0x48]).buf .report = some [0x48] ∧
    Params.tc.wellFormed .report = true ∧
    parseUpTo Codec.tc .report 4 ([0x48] ++ [0x48, 0x48, 0x48, 0x48]) =
      (List.replicate 4 .heartbeat, [0x48]) ∧
    parseUpTo Codec.tc .report 4 ([0x48] ++ [0x56]) = ([.heartbeat], [0x56]) ∧
    parseUpTo Codec.tc .report 4 ([0x48] ++ [0x00]) = ([.heartbeat], [0x00]) ∧
    parseUpTo Codec.tc .report 1 ([0x48] ++ [0x00]) = ([.heartbeat], [0x00]) := by decide

theorem test_witness_FeedByteIsABatchOfOne :
    (holding .report [0x56]).buf .report = some [0x56] ∧
    decode Codec.tc .report [0x56] = .incomplete ∧
    ∃ t ms, stepWith Params.tc ((holding .report [0x56]).post (.feed .report [0xFB])) = .next t ∧
      t.resp = some (.messages ms) ∧ ms ≠ [] := ⟨by decide, by decide, _, _, rfl, rfl, by decide⟩

/-- Each clause: NEW, DISCARD, FEED, and a request that leaves the buffer alone. -/
theorem test_witness_BuffersAreOnlyAppendedAndDrained :
    (holding .report [0x48]).buf .report = some [0x48] ∧ ([0x48] : Bytes).length ≤ (Params.tc.sizes .command).cap ∧
    (∃ s', stepWith Params.tc ((holding .report [0x48]).post (.new .report)) = .next s' ∧
      s'.buf .report = some []) ∧
    (∃ s', stepWith Params.tc ((holding .report [0x48]).post (.discard .report 1)) = .next s' ∧
      s'.buf .report = some []) ∧
    (∃ s', stepWith Params.tc ((holding .report [0x48]).post (.feed .report [0x50, 0x56])) = .next s' ∧
      s'.buf .report = some [0x56]) ∧
    (∃ s', stepWith Params.tc ((holding .report [0x48]).post (.decode .report [0x50])) = .next s' ∧
      s'.buf .report = some [0x48]) :=
  ⟨by decide, by decide, ⟨_, rfl, by decide⟩, ⟨_, rfl, by decide⟩, ⟨_, rfl, by decide⟩,
    ⟨_, rfl, by decide⟩⟩

/-- Each of the three responses of ResponsesTellTheBuffer, and the two faults of FaultsComeOnlyFromFeeds. -/
theorem test_witness_ResponsesTellTheBuffer :
    (∃ s', stepWith Params.t5 ((holding .command [0x44]).post (.feed .command [1])) = .next s' ∧
      s'.resp = some (.messages [])) ∧
    (∃ s', stepWith Params.t5 ((holding .command [0x45]).post (.feedByte .command 1)) = .next s' ∧
      s'.resp = some (.fault { kind := .malformed, reason := some .badTag, discarded := 0 })) ∧
    (∃ s', stepWith Params.t5 ((holding .command [0, 1, 2, 3, 4]).post (.feedByte .command 1)) = .next s' ∧
      s'.resp = some (.fault { kind := .bufferFull, reason := none, discarded := 0 })) :=
  ⟨⟨_, rfl, by decide⟩, ⟨_, rfl, by decide⟩, ⟨_, rfl, by decide⟩⟩

/-- V-FR, the second split. -/
theorem test_witness_FragmentationDoesNotMatter :
    State.reset.buf .report = some [] ∧ built.wellFormed .report = true ∧
    ∃ s', feedAll Params.tc .report [[0x56], [0xFB, 0x50, 0x44], [0x02, 0x68, 0x69]] State.reset =
      some ([.dialValue (-5), .press, .debug hi], s') := ⟨by decide, by decide, _, rfl⟩

theorem test_witness_LastByteCompletesTheFrame : State.reset.buf .report = some [] ∧
    ([0x44, 0x02, 0x68] : Bytes) ≠ [] ∧
    decode built.codec .report ([0x44, 0x02, 0x68] ++ [0x69]) =
      .decoded (.debug hi) (([0x44, 0x02, 0x68] : Bytes).length + 1) := by decide

theorem test_witness_BadTagFaultsAtOnce : State.reset.buf .report = some [] ∧
    built.wellFormed .report = true ∧
    lookup built.codec .report 0x41 = .none := by decide

/-- Five bytes behind a byte that is no tag fill the buffer of `T5`. -/
theorem test_witness_BytewiseFeedingFillsOnlyBehindMalformed :
    State.reset.buf .command = some [] ∧ Params.t5.wellFormed .command = true ∧
    ∃ s', runTxns Params.t5 ([0, 1, 2, 3, 4].map (.feedByte .command)) State.reset = some s' ∧
      s'.buf .command = some [0, 1, 2, 3, 4] ∧ ([0, 1, 2, 3, 4] : Bytes).length = (Params.t5.sizes .command).cap :=
  ⟨by decide, by decide, _, rfl, by decide, by decide⟩

theorem test_witness_MalformedFrontStalls : (holding .command [0, 1]).buf .command = some [0, 1] ∧
    Params.t5.wellFormed .command = true ∧ decode Codec.tc .command [0, 1] = .malformed .badTag ∧
    ∀ t ∈ ([.feed .command [2], .feedByte .command 3] : List (Txn 254)), IsFeedTo .command t := by
  refine ⟨by decide, by decide, by decide, ?_⟩
  simp [IsFeedTo]

/-- Both parts: a step of the other direction, and two machines and states that agree on one direction only. -/
theorem test_witness_DirectionsAreIsolated :
    (∃ s', stepWith Params.tc ((holding .command [0x41]).post (.feed .report [0x48])) = .next s' ∧
      Family.command ≠ (Txn.feed .report [0x48] : Txn 254).family) ∧
    ({ Params.tc with cmd := Params.t5.cmd } : Params).sizes .report = Params.tc.sizes .report ∧
    (holding .command [0x41]).buf .report = (holding .command [0x42]).buf .report ∧
    holding .command [0x41] ≠ holding .command [0x42] :=
  ⟨⟨_, rfl, by decide⟩, by decide, by decide, by decide⟩

/-- A step with a request and one without. -/
theorem test_witness_FramerIsPassive : (∃ t, step (State.reset.post (.feed .report [0x48])) = .next t) ∧
    State.reset.pending = [] := ⟨⟨_, rfl⟩, rfl⟩

/-- Sizes that differ in the other direction, sizes that differ in this one and show it, and DECODE under both. -/
theorem test_witness_ConfigurationIsAParameterOfTheStep :
    ({ Params.tc with rep := Params.td.rep } : Params).sizes .command = Params.tc.sizes .command ∧
    (∃ t, stepWith Params.tc (State.reset.post (.feed .command [0, 1, 2, 3, 4, 5])) = .next t ∧
      t.resp = some (.fault { kind := .malformed, reason := some .badTag, discarded := 0 })) ∧
    (∃ t, stepWith Params.t5 (State.reset.post (.feed .command [0, 1, 2, 3, 4, 5])) = .next t ∧
      t.resp = some (.fault { kind := .bufferFull, reason := none, discarded := 0 })) ∧
    Params.tc.wellFormed .command = true ∧
    Params.wellFormed { Params.tc with cmd := Params.t5.cmd } .command = true :=
  ⟨by decide, ⟨_, rfl, by decide⟩, ⟨_, rfl, by decide⟩, by decide, by decide⟩

theorem test_witness_StepKeepsTheInvariant :
    State.Inv Params.tc (State.reset.post (.feed .report [0x48])) = true ∧
    ∃ t, stepWith Params.tc (State.reset.post (.feed .report [0x48])) = .next t ∧
      t.resp = some (.messages [.heartbeat]) := ⟨by decide, _, rfl, by decide⟩

theorem test_witness_ResetMeetsTheInvariant : ∃ p : Params, p.codec.debugMaxLen ≠ built.codec.debugMaxLen ∧
    p.wellFormed .command = true ∧ p.wellFormed .report = true := ⟨Params.td, by decide, by decide, by decide⟩

/-- Each refusal, and the ill-formed configuration where it meets one of the other two. -/
theorem test_witness_RequestsAreAnsweredButForThreeRefusals :
    stepWith smallCap (State.reset.post (.new .command)) = .refused .illFormedConfig ∧
    stepWith Params.tc (State.powerOn.post (.discard .report 0)) = .refused .noReader ∧
    stepWith Params.tc (State.reset.post (.encode (.dialValue 128))) = .refused .notConstructible ∧
    stepWith smallCap (State.powerOn.post (.feed .command [])) =
      .refused .illFormedConfig ∧
    stepWith smallCap (State.reset.post (.encode .bootload)) =
      .refused .illFormedConfig ∧
    ∃ u, stepWith Params.tc (State.reset.post (.feed .command [])) = .next u :=
  ⟨rfl, rfl, rfl, rfl, rfl, _, rfl⟩

theorem test_witness_EncodedMessagesAreDelivered : State.reset.buf .report = some [] ∧
    (∀ m ∈ [Instr.dialValue (-5), .press], m.family = .report ∧
      m.constructible built.codec = true) ∧
    2 ≤ (built.sizes .report).outqCap ∧
    [[0x56], [0xFB, 0x50]].flatten = [Instr.dialValue (-5), .press].flatMap (encode built.codec) ∧
    ∃ s', feedAll Params.tc .report [[0x56], [0xFB, 0x50]] State.reset =
      some ([.dialValue (-5), .press], s') :=
  ⟨by decide, by decide, by decide, by decide, _, rfl⟩

theorem test_witness_FramesReachTheWireWhole :
    ∃ k', Sink.send [([0x56, 0xFB], [1, 1])] { wire := [0x50], unsent := [] } = some k' ∧
      ([0x56, 0xFB] : Bytes) ≠ [] := ⟨_, rfl, by decide⟩

end Sys2Proof.Tests
end

/-! SUPPORT. 20_memory.md R46: what becomes of a Reader's buffer in one transaction. First what DECODE's answer
says of the frame at the front, then the loop and FEED_CORE, then any request. -/

namespace Sys2Proof

open Machine

/-! A decoded frame. -/

/-- The dispatch selects only variants of its own family (R61, R62). -/
theorem build_family_of_lookup {cfg : Codec} {F : Family} {t : Byte} {n k : Nat} {v : FixedVariant}
    (h : lookup cfg F t = .fixed n v) (s : Bytes) : (build (n := k) v s).family = F := by
  rcases lookup_fixed h with ⟨rfl, hv⟩ | ⟨rfl, hv⟩
  · rcases hv with ⟨-, -, rfl⟩ | ⟨-, -, rfl⟩ | ⟨-, -, rfl⟩ | ⟨-, -, rfl⟩ | ⟨-, -, rfl⟩ <;> rfl
  · rcases hv with ⟨-, -, rfl⟩ | ⟨-, -, rfl⟩ | ⟨-, -, rfl⟩ | ⟨-, -, rfl⟩ | ⟨-, -, rfl⟩ | ⟨-, -, rfl⟩ <;> rfl

/-- DECODE stays in its family (R94). -/
theorem decode_decoded_family {cfg : Codec} {F : Family} {s : Bytes} {m : Instr cfg.debugMaxLen} {n : Nat}
    (h : decode cfg F s = .decoded m n) : m.family = F := by
  rcases decode_decoded h with ⟨t, rest, v, -, hl, -, rfl⟩ | ⟨len, payload, d, rfl, -, -, -, -, rfl, -⟩
  · exact build_family_of_lookup hl _
  · rfl

/-- The length DECODE answers is the wire size of the message it answers (R12, R94). -/
theorem decode_decoded_wireSize {cfg : Codec} {F : Family} {s : Bytes} {m : Instr cfg.debugMaxLen} {n : Nat}
    (h : decode cfg F s = .decoded m n) : m.wireSize = n := by
  rcases decode_decoded h with ⟨t, rest, v, -, hl, -, rfl⟩ | ⟨len, payload, d, -, -, -, hp, hd, rfl, rfl⟩
  · rw [build_wireSize, lookup_fixed_size hl]
  · rw [Instr.wireSize, hd, List.length_take_of_le hp]

/-! The loop and FEED_CORE. -/

/-- What the greedy parse leaves is a suffix of the stream. -/
theorem parseUpTo_rest_eq_drop (cfg : Codec) (F : Family) (k : Nat) (S : Bytes) :
    ∃ j, (parseUpTo cfg F k S).2 = S.drop j := by
  induction k generalizing S with
  | zero => exact ⟨0, rfl⟩
  | succ k ih =>
    cases hd : decode cfg F S with
    | incomplete => exact ⟨0, by rw [parseUpTo_incomplete _ hd]; rfl⟩
    | malformed r => exact ⟨0, by rw [parseUpTo_malformed _ hd]; rfl⟩
    | decoded m n =>
      obtain ⟨j, hj⟩ := ih (S.drop n)
      exact ⟨n + j, by rw [parseUpTo_decoded k hd, hj, List.drop_drop]⟩

namespace Machine

/-- Running the instruction that DECODE found at the front of a buffer drains its frame from that buffer. -/
theorem execAt_decoded_next {cfg : Codec} {F : Family} {s u : State cfg.debugMaxLen} {b : Bytes}
    {m : Instr cfg.debugMaxLen} {n : Nat} (hb : s.buf F = some b) (hd : decode cfg F b = .decoded m n)
    (h : execAt m s = .next u) : u = (s.setBuf F (b.drop n)).pushOut m := by
  rw [execAt_eq_deliver, decode_decoded_family hd, decode_decoded_wireSize hd] at h
  obtain ⟨-, b₁, hb₁, rfl⟩ := deliver_next h
  cases hb.symm.trans hb₁
  rfl

/-- The loop gives the Reader what the greedy parse of its buffer leaves, and answers; all else stands. -/
theorem feedLoop_next {cfg : Codec} {F : Family} {k : Nat} {s s' : State cfg.debugMaxLen} {b : Bytes}
    (hb : s.buf F = some b) (h : feedLoop cfg F k s = .next s') :
    ∃ r, s' = (s.setBuf F (parseUpTo cfg F k b).2).respond r := by
  induction k generalizing s b with
  | zero =>
    cases h
    exact ⟨.messages s.outq, by rw [parseUpTo, State.setBuf_same hb, returnOut_eq]⟩
  | succ k ih =>
    simp only [feedLoop, hb] at h
    cases hd : decode cfg F b with
    | incomplete =>
      simp only [hd] at h
      cases h
      exact ⟨_, by rw [parseUpTo_incomplete _ hd, State.setBuf_same hb, returnOut_eq]⟩
    | malformed r =>
      simp only [hd] at h
      cases h
      exact ⟨_, by rw [parseUpTo_malformed _ hd, State.setBuf_same hb, raiseFault_eq]⟩
    | decoded m n =>
      simp only [hd] at h
      obtain ⟨u, hu, hl⟩ := andThen_next h
      cases execAt_decoded_next hb hd hu
      obtain ⟨r, rfl⟩ := ih (b := b.drop n) (by simp) hl
      exact ⟨r, by simp [parseUpTo_decoded k hd]⟩

/-- FEED_CORE writes one buffer: a batch that does not fit leaves it alone, and after one that fits it is a
suffix of itself with the batch behind it (R46, R183). -/
theorem feedCore_next {p : Params} {F : Family} {input : Bytes} {bound : Nat} {s s' : StateOf p}
    (h : feedCore p F input bound s = .next s') :
    ∃ b b' r, s.buf F = some b ∧ s' = (s.setBuf F b').respond r ∧
      (b' = b ∨ b.length + input.length ≤ (p.sizes F).cap ∧ ∃ k, b' = (b ++ input).drop k) := by
  cases hb : s.buf F with
  | none => simp [feedCore, hb] at h
  | some b =>
    rcases Nat.lt_or_ge (p.sizes F).cap (b.length + input.length) with hfull | hfits
    · rw [feedCore_full bound hb hfull] at h
      cases h
      exact ⟨b, b, _, rfl, by rw [State.setBuf_same hb], .inl rfl⟩
    · rw [feedCore_fits bound hb hfits] at h
      obtain ⟨r, rfl⟩ := feedLoop_next (b := b ++ input) (by simp) h
      exact ⟨b, (parseUpTo p.codec F bound (b ++ input)).2, r, rfl, by simp,
        .inr ⟨hfits, parseUpTo_rest_eq_drop ..⟩⟩

/-! Any request. -/

/-- A request leaves the Reader of the other direction alone (R46, R235). -/
theorem perform_buf_other {p : Params} {s s' : StateOf p} {t : TxnOf p} {F : Family}
    (h : perform p t s = .next s') (hF : F ≠ t.family) : s'.buf F = s.buf F := by
  rcases perform_next h with ⟨G, rfl, rfl⟩ | ⟨G, b, rfl, -, rfl⟩ | ⟨G, input, bound, hf, hc⟩ |
    ⟨G, n, b, rfl, -, rfl⟩ | ⟨G, slice, rfl, rfl⟩ | ⟨m, rfl, -, rfl⟩
  · exact (State.respond_buf ..).trans (State.setBuf_buf_other s _ hF)
  · exact (State.respond_buf ..).trans (State.setBuf_buf_other s _ hF)
  · obtain ⟨b, b', r, -, rfl, -⟩ := feedCore_next hc
    exact (State.respond_buf ..).trans (State.setBuf_buf_other s b' (hf.family ▸ hF))
  · exact (State.respond_buf ..).trans (State.setBuf_buf_other s _ hF)
  · exact State.respond_buf ..
  · exact State.respond_buf ..

/-- What a request may make of the content `b` of the Reader of `F`: `b'` (R46). -/
inductive BufferChange (p : Params) (F : Family) (b b' : Bytes) (t : TxnOf p) : Prop
  | cleared (ht : t = .new F ∨ t = .reset F) (hb : b' = [])
  | drained (n k : Nat) (ht : t = .discard F n) (hb : b' = b.drop k)
  | fed (input : Bytes) (bound : Nat) (ht : FeedsAs p F t input bound)
      (hb : b' = b ∨ b.length + input.length ≤ (p.sizes F).cap ∧ ∃ k, b' = (b ++ input).drop k)
  | kept (ht : ¬(t = .new F ∨ t = .reset F ∨ (∃ n, t = .discard F n) ∨ IsFeedTo F t)) (hb : b' = b)

/-- No request changes a buffer in another way. -/
theorem perform_bufferChange {p : Params} {s s' : StateOf p} {t : TxnOf p} {F : Family} {b b' : Bytes}
    (h : perform p t s = .next s') (hb : s.buf F = some b) (hb' : s'.buf F = some b') :
    BufferChange p F b b' t := by
  by_cases hF : F = t.family
  · subst hF
    rcases perform_next h with ⟨G, rfl, rfl⟩ | ⟨G, c, rfl, -, rfl⟩ | ⟨G, input, bound, hf, hc⟩ |
      ⟨G, n, c, rfl, hc, rfl⟩ | ⟨G, slice, rfl, rfl⟩ | ⟨m, rfl, -, rfl⟩
    · exact .cleared (.inl rfl) (by simpa [Txn.family] using hb'.symm)
    · exact .cleared (.inr rfl) (by simpa [Txn.family] using hb'.symm)
    · rw [hf.family] at hb hb' ⊢
      obtain ⟨c, c', r, hbc, rfl, hcc'⟩ := feedCore_next hc
      cases hb.symm.trans hbc
      rw [State.respond_buf, State.setBuf_buf_self] at hb'
      cases hb'
      exact .fed input bound hf hcc'
    · cases hb.symm.trans hc
      exact .drained n _ rfl (by simpa [Txn.family, drain] using hb'.symm)
    · exact .kept (by simp [IsFeedTo]) (by simpa [hb] using hb'.symm)
    · exact .kept (by simp [IsFeedTo]) (by simpa [hb] using hb'.symm)
  · refine .kept ?_ (by simpa [perform_buf_other h hF, hb] using hb'.symm)
    rintro (rfl | rfl | ⟨n, rfl⟩ | ⟨input, rfl⟩ | ⟨x, rfl⟩) <;> exact hF rfl

/-- Every such change keeps the buffer within `CAP` (R22). -/
theorem BufferChange.length_le {p : Params} {F : Family} {b b' : Bytes} {t : TxnOf p}
    (h : BufferChange p F b b' t) (hcap : b.length ≤ (p.sizes F).cap) : b'.length ≤ (p.sizes F).cap := by
  cases h with
  | cleared _ hb => simp [hb]
  | drained n k _ hb => exact hb ▸ drain_length_le k hcap
  | fed input bound _ hb =>
    rcases hb with rfl | ⟨hfits, k, rfl⟩
    · exact hcap
    · exact drain_length_le k (append_length_le hfits)
  | kept _ hb => exact hb ▸ hcap

end Machine

/-- Settles O40: a step changes a buffer in one of the ways of `BufferChange`, and each of them meets every
clause, the clauses about other requests by the request's form. -/
theorem buffersAreOnlyAppendedAndDrained : Obligations.BuffersAreOnlyAppendedAndDrained := by
  intro p s s' t F b b' h hb hb'
  rw [stepWith_post] at h
  have hchange : BufferChange p F b b' t := perform_bufferChange (request_next h).2 hb hb'
  have hcap := hchange.length_le
  cases hchange with
  | cleared ht hnil => rcases ht with rfl | rfl <;> simp [hnil]
  | drained n k ht hdrop => subst ht; simpa [IsFeedTo] using And.intro ⟨k, hdrop⟩ hcap
  | fed input bound ht hfed =>
    have hfed : b' = b ∨ ∃ k, b' = (b ++ input).drop k := hfed.imp_right And.right
    rcases ht with ⟨rfl, -⟩ | ⟨x, rfl, rfl, -⟩ <;> simpa [IsFeedTo] using And.intro hfed hcap
  | kept ht hsame =>
    exact ⟨fun h => (ht (h.elim .inl fun hr => .inr (.inl hr))).elim,
      fun h => (ht (.inr (.inr (.inl h)))).elim, fun _ _ => .inl hsame, fun _ => hsame, hcap⟩

end Sys2Proof

/-! SUPPORT. 30_encoding.md R71 and R67: the Debug frame's length byte and the big-endian `u16` fields, in both
directions. -/

namespace Sys2Proof

open Machine

/-! The Debug frame (R71). -/

/-- A Debug frame that decodes is its two leading bytes and as many more as its length byte says. -/
theorem decode_cons_debug_decoded {cfg : Codec} {len : Byte} {payload : Bytes} {m : Instr cfg.debugMaxLen} {n : Nat}
    (h : decode cfg .report (0x44 :: len :: payload) = .decoded m n) :
    n = 2 + len.toNat ∧ len.toNat ≤ payload.length ∧
      ∃ d : DebugStr cfg.debugMaxLen, m = .debug d ∧ d.bytes = payload.take len.toNat := by
  rcases decode_decoded h with ⟨t, rest, v, hs, hl, -, -⟩ | ⟨len', payload', d, -, hs, -, hp, hd, hm, hn⟩
  · obtain ⟨rfl, -⟩ := List.cons.inj hs
    rw [lookup_lengthPrefixed.2 ⟨rfl, rfl⟩] at hl
    cases hl
  · cases hs
    exact ⟨hn, hp, d, hm, hd⟩

/-- With a legal length, DECODE waits for nothing but the payload. -/
theorem decode_cons_debug_incomplete_iff {cfg : Codec} {len : Byte} {payload : Bytes}
    (hm : len.toNat ≤ cfg.debugMaxLen) :
    decode cfg .report (0x44 :: len :: payload) = .incomplete ↔ payload.length < len.toNat := by
  constructor
  · intro h
    by_contra hshort
    have hl : len.toNat ≤ payload.length := Nat.le_of_not_lt hshort
    cases hv : utf8Valid (payload.take len.toNat) with
    | false =>
      rw [decode_cons_debug_invalid hm hl hv] at h
      cases h
    | true =>
      obtain ⟨d, -, hd⟩ := decode_cons_debug_valid hm hl hv
      rw [hd] at h
      cases h
  · intro hshort
    rw [decode_cons_debug, if_neg (Nat.not_lt.2 hm), if_pos hshort]

/-- The frame ENCODE gives a Debug message. -/
theorem encode_debug (cfg : Codec) (d : DebugStr cfg.debugMaxLen) :
    encode cfg (.debug d) = 0x44 :: lenByte d.bytes :: d.bytes := rfl

/-- Settles O14: what DECODE reads is `decode_cons_debug_decoded`, when it waits is
`decode_cons_debug_incomplete_iff`, and a payload of at most 255 bytes has its length in the byte written. -/
theorem lengthByteIsAuthoritative : Obligations.LengthByteIsAuthoritative :=
  ⟨fun _ _ _ _ _ => decode_cons_debug_decoded,
    fun _ _ _ => decode_cons_debug_incomplete_iff,
    fun cfg d hmax => ⟨lenByte d.bytes, encode_debug cfg d, lenByte_toNat (d.fits.trans hmax)⟩⟩

/-! The frames with a `u16` field (R67). -/

/-- The frames ENCODE gives Brightness, Temperature and Error. -/
theorem encode_brightness (cfg : Codec) (target : Byte) (v : Word) :
    encode cfg (.brightness target v) = [0x42, target, hiByte v, loByte v] := rfl

theorem encode_temperature (cfg : Codec) (target : Byte) (v : Word) :
    encode cfg (.temperature target v) = [0x43, target, hiByte v, loByte v] := rfl

theorem encode_error (cfg : Codec) (v : Word) : encode cfg (.error v) = [0x45, hiByte v, loByte v] := rfl

/-- A fixed-size frame that is there whole decodes from its own bytes, whatever follows (R91). -/
theorem decode_append_fixed {cfg : Codec} {F : Family} {t : Byte} {v : FixedVariant} {body : Bytes} (rest : Bytes)
    (h : lookup cfg F t = .fixed (body.length + 1) v) :
    decode cfg F (t :: body ++ rest) = .decoded (build v (t :: body)) (body.length + 1) := by
  rw [List.cons_append, decode_cons_fixed _ h, if_neg (by simp), List.take_succ_cons, List.take_left]

theorem decode_brightness (cfg : Codec) (target hi lo : Byte) (rest : Bytes) :
    decode cfg .command ([0x42, target, hi, lo] ++ rest) = .decoded (.brightness target (be16 hi lo)) 4 :=
  decode_append_fixed (body := [target, hi, lo]) (v := .brightness) rest rfl

theorem decode_temperature (cfg : Codec) (target hi lo : Byte) (rest : Bytes) :
    decode cfg .command ([0x43, target, hi, lo] ++ rest) = .decoded (.temperature target (be16 hi lo)) 4 :=
  decode_append_fixed (body := [target, hi, lo]) (v := .temperature) rest rfl

theorem decode_error (cfg : Codec) (hi lo : Byte) (rest : Bytes) :
    decode cfg .report ([0x45, hi, lo] ++ rest) = .decoded (.error (be16 hi lo)) 3 :=
  decode_append_fixed (body := [hi, lo]) (v := .error) rest rfl

/-- The two bytes of a field have the value of the field, unsigned. -/
theorem hiByte_loByte_toNat (v : Word) : (hiByte v).toNat * 256 + (loByte v).toNat = v.toNat := by
  rw [← be16_toNat, be16_hiByte_loByte]

/-- Settles O9: the two bytes of a field and its value determine each other, and the three frames are written
and read with that field at the place stated. -/
theorem wordFieldsAreBigEndian : Obligations.WordFieldsAreBigEndian := by
  refine ⟨fun v => ⟨be16_hiByte_loByte v, hiByte_loByte_toNat v⟩,
    fun hi lo => ⟨hiByte_be16 hi lo, loByte_be16 hi lo⟩, fun cfg target v rest => ?_⟩
  rw [encode_brightness, encode_temperature, encode_error, decode_brightness, decode_temperature, decode_error,
    be16_hiByte_loByte]
  exact ⟨rfl, rfl, rfl, rfl, rfl, rfl, rfl, rfl, rfl⟩

end Sys2Proof

/-! SUPPORT. 40_codec.md R92, R93 and R99: what the tag dispatch says of a tag and of an encoded frame's leading
byte, the sizes of encoded frames, and DECODE as a transaction. -/

namespace Sys2Proof

open Machine

/-! The dispatch (R92). -/

/-- A byte that is none of the four Command letters is the Bootload tag or no tag. -/
theorem lookup_command_of_notMem {t : Byte} (cfg : Codec) (ht : t ∉ [(0x41 : Byte), 0x42, 0x43, 0x44]) :
    lookup cfg .command t = if cfg.bootloadTag = some t then .fixed 1 .bootload else .none := by
  simp_all [lookup]

theorem lookup_report_of_notMem {t : Byte} (cfg : Codec)
    (ht : t ∉ [(0x48 : Byte), 0x56, 0x50, 0x4C, 0x58, 0x45, 0x44]) : lookup cfg .report t = .none := by
  simp_all [lookup]

/-- Of the configuration, the dispatch reads `BOOTLOAD_TAG` only. -/
theorem lookup_congr {cfg cfg' : Codec} (F : Family) (t : Byte) (h : cfg.bootloadTag = cfg'.bootloadTag) :
    lookup cfg F t = lookup cfg' F t := by
  cases F with
  | command => simp only [lookup, h]
  | report => rfl

/-- What DECODE builds has the variant and the frame class of the leading tag. -/
theorem decode_decoded_variant {cfg : Codec} {F : Family} {t : Byte} {rest : Bytes} {m : Instr cfg.debugMaxLen}
    {n : Nat} (h : decode cfg F (t :: rest) = .decoded m n) :
    (∃ v, lookup cfg F t = .fixed n v ∧ m.variant = .fixed v) ∨
    (lookup cfg F t = .lengthPrefixed ∧ m.variant = .debug) := by
  rcases decode_decoded h with ⟨t', rest', v, hs, hl, -, rfl⟩ | ⟨len, payload, d, hF, hs, -, -, -, rfl, -⟩
  · obtain ⟨rfl, rfl⟩ := List.cons.inj hs
    exact .inl ⟨v, hl, build_variant ..⟩
  · exact .inr ⟨lookup_lengthPrefixed.2 ⟨hF, (List.cons.inj hs).1⟩, rfl⟩

/-- Settles O1: the listed tags by evaluation of the dispatch, the others by the two lemmas on unlisted bytes, and
the variant by `decode_decoded_variant`. -/
theorem dispatchSelectsByTagAlone : Obligations.DispatchSelectsByTagAlone := by
  refine ⟨fun cfg => ⟨rfl, rfl, rfl, rfl, fun t htag ht => ?_, fun t htag ht => ?_,
    rfl, rfl, rfl, rfl, rfl, rfl, rfl, fun t => lookup_report_of_notMem cfg⟩,
    fun _ _ => lookup_congr, fun _ _ _ _ _ _ => decode_decoded_variant⟩
  · rw [lookup_command_of_notMem cfg ht, if_pos htag]
  · rw [lookup_command_of_notMem cfg ht, if_neg htag]

/-! The sizes of encoded frames (R99). -/

theorem encode_bootload {cfg : Codec} {t : Byte} (ht : cfg.bootloadTag = some t) :
    encode cfg .bootload = [t] :=
  congrArg Option.toList ht

/-- ENCODE writes as many bytes as the wire size says. -/
theorem encode_length {cfg : Codec} {m : Instr cfg.debugMaxLen} (hm : m.constructible cfg = true) :
    (encode cfg m).length = m.wireSize := by
  cases m with
  | bootload =>
    obtain ⟨t, ht⟩ := Option.isSome_iff_exists.1 hm
    rw [encode_bootload ht]
    rfl
  | debug d => simp [encode_debug, Instr.wireSize, Nat.add_comm 2]
  | _ => rfl

theorem Instr.wireSize_pos {n : Nat} (m : Instr n) : 1 ≤ m.wireSize := by
  cases m with
  | debug d => exact Nat.le_add_right_of_le (by decide)
  | _ => simp [Instr.wireSize]

/-- No message is larger than the largest of its family (R8): a Debug message by the bound in its type. -/
theorem Instr.wireSize_le_maxWire (cfg : Codec) (m : Instr cfg.debugMaxLen) :
    m.wireSize ≤ maxWire cfg m.family := by
  cases m with
  | debug d => exact (Nat.add_le_add_left d.fits 2).trans (Nat.le_max_right ..)
  | _ => simp [Instr.wireSize, Instr.family, maxWire]

/-! The leading byte of an encoded frame (R99). -/

/-- The variant that a frame class selects (R92). -/
def FrameClass.variant : FrameClass → Option Variant
  | .fixed _ v => some (.fixed v)
  | .lengthPrefixed => some .debug
  | .none => Option.none

/-- The leading byte of an encoded frame is dispatched back to the message's variant. A Bootload tag is, because a
well-formed configuration keeps it apart from the other Command tags (R8, R63). -/
theorem encode_head_dispatches {cfg : Codec} {m : Instr cfg.debugMaxLen} (hcfg : bootloadTagOk cfg = true)
    (hm : m.constructible cfg = true) :
    ∃ t, (encode cfg m).head? = some t ∧ (lookup cfg m.family t).variant = some m.variant := by
  cases m with
  | bootload =>
    obtain ⟨t, ht⟩ := Option.isSome_iff_exists.1 hm
    have hlookup : lookup cfg .command t = .fixed 1 .bootload := by
      rw [lookup_command_of_notMem cfg (by simpa using bootloadTagOk_ne hcfg ht), if_pos ht]
    exact ⟨t, by rw [encode_bootload ht]; rfl, congrArg FrameClass.variant hlookup⟩
  | _ => exact ⟨_, rfl, rfl⟩

/-- Within a family the leading byte of an encoded frame tells the variant. -/
theorem variant_eq_of_encode_head_eq {cfg : Codec} {m m' : Instr cfg.debugMaxLen} (hcfg : bootloadTagOk cfg = true)
    (hm : m.constructible cfg = true) (hm' : m'.constructible cfg = true) (hF : m.family = m'.family)
    (h : (encode cfg m).head? = (encode cfg m').head?) : m.variant = m'.variant := by
  obtain ⟨t, ht, hv⟩ := encode_head_dispatches hcfg hm
  obtain ⟨t', ht', hv'⟩ := encode_head_dispatches hcfg hm'
  have htt : t = t' := Option.some.inj (ht.symm.trans (h.trans ht'))
  rw [htt, hF] at hv
  exact Option.some.inj (hv.symm.trans hv')

/-- A Led frame with 0x03 at its length byte's place is the Debug frame of a payload of three bytes. -/
theorem encode_led_eq_encode_debug {cfg : Codec} {g b pulse : Byte} {d : DebugStr cfg.debugMaxLen}
    (hd : d.bytes = [g, b, pulse]) : encode cfg (.led 0x03 g b pulse) = encode cfg (.debug d) := by
  rw [encode_debug, hd]
  rfl

/-- Settles O23: the three lemmas on sizes; the leading byte is dispatched to one variant; Led and Debug share a
frame. -/
theorem encodedFramesFitAndTagsDiffer : Obligations.EncodedFramesFitAndTagsDiffer := by
  refine ⟨?_, ?_, fun _ _ _ _ _ _ => ⟨rfl, rfl, encode_led_eq_encode_debug⟩⟩
  · rintro cfg F ⟨m, rfl, hm⟩
    exact ⟨encode_length hm, m.wireSize_pos, m.wireSize_le_maxWire cfg⟩
  · rintro cfg F ⟨m, rfl, hm⟩ ⟨m', hF, hm'⟩ hcfg h
    exact variant_eq_of_encode_head_eq (Codec.wellFormed_iff.1 hcfg).2 hm hm' hF.symm h

/-! DECODE as a transaction (R93). -/

/-- The one next state that a request to DECODE can have. -/
theorem Machine.stepWith_post_decode_next {p : Params} {s t : StateOf p} {F : Family} {slice : Bytes} :
    stepWith p (s.post (.decode F slice)) = .next t ↔
      p.wellFormed F = true ∧ t = s.respond (.outcome (decode p.codec F slice)) := by
  rw [stepWith_post]
  constructor
  · intro h
    obtain ⟨hp, hnext⟩ := request_next h
    cases hnext
    exact ⟨hp, rfl⟩
  · rintro ⟨hp, rfl⟩
    exact request_of_wellFormed hp

/-- Settles O24: the only next state is `s.respond` of DECODE's outcome, which keeps every field but the response
and the output queue, and the sizes occur in neither. -/
theorem decodeTransactionIsPure : Obligations.DecodeTransactionIsPure := by
  refine ⟨fun p s F slice hp => stepWith_post_decode_next.2 ⟨hp, rfl⟩, ?_, ?_⟩
  · intro p s t F slice h
    obtain ⟨hp, rfl⟩ := stepWith_post_decode_next.1 h
    exact ⟨rfl, rfl, rfl, stepWith_post_decode_next.2 ⟨hp, rfl⟩⟩
  · intro p cmd rep s s' t t' F slice h h'
    obtain ⟨-, rfl⟩ := stepWith_post_decode_next.1 h
    obtain ⟨-, rfl⟩ := stepWith_post_decode_next.1 h'
    rfl

end Sys2Proof

/-! SUPPORT. 41_command_messages.md R111, R112 and R115: unlisted tags, frames cut short, and the two written bytes
of a `u16` field as its bits 15..8 and 7..0. -/

namespace Sys2Proof

open Machine

/-! Unlisted tags (R115, R148). -/

/-- Settles O2: an unlisted byte is dispatched to no frame, and DECODE answers BAD_TAG to such a byte. -/
theorem unlistedTagsAreBadTag : Obligations.UnlistedTagsAreBadTag := by
  refine ⟨fun cfg t rest ht hboot => decode_cons_none rest ?_,
    fun cfg t rest ht => decode_cons_none rest (lookup_report_of_notMem cfg ht)⟩
  rw [lookup_command_of_notMem cfg ht, if_neg hboot]

/-! The Brightness and Temperature frames (R111, R112). -/

/-- DECODE waits while bytes of a fixed-size frame are missing (R91). -/
theorem decode_cons_fixed_short {cfg : Codec} {F : Family} {t : Byte} {n : Nat} {v : FixedVariant} {short : Bytes}
    (h : lookup cfg F t = .fixed n v) (hshort : short.length + 1 < n) :
    decode cfg F (t :: short) = .incomplete := by
  rw [decode_cons_fixed short h, if_pos hshort]

/-- The first byte of a `u16` field is `v[15:8]` (R67). -/
theorem Machine.hiByte_eq_extractLsb' (v : Word) : hiByte v = v.extractLsb' 8 8 := by
  apply BitVec.eq_of_toNat_eq
  have h := v.isLt
  rw [hiByte_toNat, BitVec.extractLsb'_toNat, Nat.shiftRight_eq_div_pow]
  omega

/-- The second byte of a `u16` field is `v[7:0]` (R67). -/
theorem Machine.loByte_eq_extractLsb' (v : Word) : loByte v = v.extractLsb' 0 8 := by
  apply BitVec.eq_of_toNat_eq
  rw [loByte_toNat, BitVec.extractLsb'_toNat, Nat.shiftRight_zero]

/-- Settles O4: whole frames and written frames by the lemmas on `u16` frames, a frame cut short by
`decode_cons_fixed_short`. -/
theorem brightnessAndTemperatureFrames : Obligations.BrightnessAndTemperatureFrames := by
  intro cfg target hi lo value rest short hshort
  have hmissing : short.length + 1 < 4 := Nat.succ_lt_succ hshort
  rw [encode_brightness, encode_temperature, hiByte_eq_extractLsb', loByte_eq_extractLsb']
  exact ⟨decode_brightness cfg target hi lo rest, decode_temperature cfg target hi lo rest, be16_toNat hi lo,
    decode_cons_fixed_short (v := .brightness) rfl hmissing,
    decode_cons_fixed_short (v := .temperature) rfl hmissing, rfl, rfl⟩

end Sys2Proof

/-! SUPPORT. 42_report_messages.md R140 to R142, R144 and R145: the one-byte Report frames, the DialValue frame with
its two's-complement byte (R68), and the Error frame. -/

namespace Sys2Proof

open Machine

/-! The one-byte frames (R140, R142, R144). -/

/-- The frames ENCODE gives Heartbeat, Press and EmergencyOff. -/
theorem encode_heartbeat (cfg : Codec) : encode cfg .heartbeat = [0x48] := rfl

theorem encode_press (cfg : Codec) : encode cfg .press = [0x50] := rfl

theorem encode_emergencyOff (cfg : Codec) : encode cfg .emergencyOff = [0x58] := rfl

theorem decode_heartbeat (cfg : Codec) (rest : Bytes) :
    decode cfg .report ([0x48] ++ rest) = .decoded .heartbeat 1 :=
  decode_append_fixed (body := []) (v := .heartbeat) rest rfl

theorem decode_press (cfg : Codec) (rest : Bytes) :
    decode cfg .report ([0x50] ++ rest) = .decoded .press 1 :=
  decode_append_fixed (body := []) (v := .press) rest rfl

theorem decode_emergencyOff (cfg : Codec) (rest : Bytes) :
    decode cfg .report ([0x58] ++ rest) = .decoded .emergencyOff 1 :=
  decode_append_fixed (body := []) (v := .emergencyOff) rest rfl

/-- Settles O5: each of the three tags is a whole frame, so `decode_append_fixed` needs no byte behind it. -/
theorem oneByteReportFrames : Obligations.OneByteReportFrames := fun cfg rest =>
  ⟨decode_heartbeat cfg rest, encode_heartbeat cfg, decode_press cfg rest, encode_press cfg,
    decode_emergencyOff cfg rest, encode_emergencyOff cfg⟩

/-! The DialValue frame (R141) and its `i8` (R68). -/

/-- A byte below 128 stands for itself, the others for 256 less. -/
theorem Machine.sext8_of_lt {b : Byte} (h : b.toNat < 128) : sext8 b = b.toNat := if_pos h

theorem Machine.sext8_of_le {b : Byte} (h : 128 ≤ b.toNat) : sext8 b = (b.toNat : Int) - 256 :=
  if_neg (Nat.not_lt.2 h)

/-- The unsigned value of the byte written for an `i8`. -/
theorem Machine.bits8_toNat {d : Int} (h : isI8 d = true) :
    ((bits8 d).toNat : Int) = if 0 ≤ d then d else d + 256 := by
  rw [isI8_iff] at h
  rw [bits8, BitVec.toNat_ofInt]
  split <;> omega

theorem encode_dialValue (cfg : Codec) (d : Int) : encode cfg (.dialValue d) = [0x56, bits8 d] := rfl

theorem decode_dialValue (cfg : Codec) (b : Byte) (rest : Bytes) :
    decode cfg .report ([0x56, b] ++ rest) = .decoded (.dialValue (sext8 b)) 2 :=
  decode_append_fixed (body := [b]) (v := .dialValue) rest rfl

/-- Settles O7: the value read is `sext8` of the byte and the byte written is `bits8` of the value; `bits8_sext8`
makes the second undo the first, and the corner values are evaluations of the two. -/
theorem dialValueFrameIsTwosComplement : Obligations.DialValueFrameIsTwosComplement := by
  refine ⟨fun cfg b rest => ⟨sext8 b, decode_dialValue cfg b rest, sext8_of_lt, sext8_of_le, ?_⟩,
    fun cfg d hlo hhi => ⟨bits8 d, encode_dialValue cfg d, bits8_toNat (isI8_iff.2 ⟨hlo, hhi⟩)⟩,
    fun cfg => ⟨?_, ?_, ?_⟩⟩
  · rw [encode_dialValue, bits8_sext8]
  · exact decode_cons_fixed_short (n := 2) (v := .dialValue) rfl (by decide)
  · rw [encode_dialValue]
    decide
  · exact ⟨decode_dialValue cfg 0x7F [], decode_dialValue cfg 0x80 [], decode_dialValue cfg 0xFF [],
      decode_dialValue cfg 0x00 []⟩

/-! The Error frame (R145). -/

/-- Settles O8: the whole frame and the written one by the lemmas on `u16` frames, a frame cut short by
`decode_cons_fixed_short`. -/
theorem errorFrame : Obligations.ErrorFrame := by
  intro cfg hi lo code rest short hshort
  have hmissing : short.length + 1 < 3 := Nat.succ_lt_succ hshort
  rw [encode_error, hiByte_eq_extractLsb', loByte_eq_extractLsb']
  exact ⟨decode_error cfg hi lo rest, be16_toNat hi lo,
    decode_cons_fixed_short (v := .error) rfl hmissing, rfl⟩

end Sys2Proof

/-! SUPPORT. 43_reader.md R184: the message DECODE answers is one that its meaning runs, and one equation of the
loop for each outcome of DECODE. -/

namespace Sys2Proof

open Machine

/-! A decoded message. -/

/-- What a fixed-size frame builds is a message value: a `diff` read from a byte is an `i8` (R68). -/
theorem build_wellFormed {n : Nat} (v : FixedVariant) (s : Bytes) : (build (n := n) v s).wellFormed = true := by
  cases v with
  | dialValue => exact isI8_sext8 _
  | _ => rfl

/-- DECODE answers message values only (R29, R94). -/
theorem decode_decoded_wellFormed {cfg : Codec} {F : Family} {s : Bytes} {m : Instr cfg.debugMaxLen} {n : Nat}
    (h : decode cfg F s = .decoded m n) : m.wellFormed = true := by
  rcases decode_decoded h with ⟨t, rest, v, -, -, -, rfl⟩ | ⟨len, payload, d, -, -, -, -, -, rfl, -⟩
  · exact build_wellFormed v _
  · rfl

namespace Machine

/-- The instruction that DECODE found at the front of a buffer runs; `execAt_decoded_next` says that it can do
nothing else. -/
theorem execAt_decoded {cfg : Codec} {F : Family} {s : State cfg.debugMaxLen} {b : Bytes}
    {m : Instr cfg.debugMaxLen} {n : Nat} (hb : s.buf F = some b) (hd : decode cfg F b = .decoded m n) :
    execAt m s = .next ((s.setBuf F (b.drop n)).pushOut m) := by
  rw [execAt_eq_deliver, decode_decoded_family hd, decode_decoded_wireSize hd,
    deliver_of_reader (decode_decoded_wellFormed hd) hb, drain]

/-! A pass of the loop with room for another message (R184). -/

section

variable {cfg : Codec} {F : Family} {s : State cfg.debugMaxLen} {b : Bytes}

theorem feedLoop_incomplete (room : Nat) (hb : s.buf F = some b) (hd : decode cfg F b = .incomplete) :
    feedLoop cfg F (room + 1) s = .next (s.respond (.messages s.outq)) := by
  simp only [feedLoop, hb, hd, returnOut_eq]

theorem feedLoop_malformed {r : Reason} (room : Nat) (hb : s.buf F = some b) (hd : decode cfg F b = .malformed r) :
    feedLoop cfg F (room + 1) s =
      .next (s.respond (.fault { kind := .malformed, reason := some r, discarded := s.outq.length })) := by
  simp only [feedLoop, hb, hd, raiseFault_eq]

theorem feedLoop_decoded {m : Instr cfg.debugMaxLen} {n : Nat} (room : Nat) (hb : s.buf F = some b)
    (hd : decode cfg F b = .decoded m n) :
    feedLoop cfg F (room + 1) s = feedLoop cfg F room ((s.setBuf F (b.drop n)).pushOut m) := by
  simp only [feedLoop, hb, hd, execAt_decoded hb hd, andThen_of_next]

end

end Machine

/-- Settles O37: one equation of the loop for each outcome; the output queue that the last one appends to is that
of the state before the drain. -/
theorem decodeLoopActsOnTheOutcome : Obligations.DecodeLoopActsOnTheOutcome := by
  intro cfg s F room b hb
  refine ⟨feedLoop_incomplete room hb, fun r hd => ⟨s.outq.length, feedLoop_malformed room hb hd⟩, ?_⟩
  intro m n hd
  rw [feedLoop_decoded room hb hd, State.pushOut, State.setBuf_outq]

end Sys2Proof

/-! SUPPORT. 40_codec.md R101 and R102 with R29 to R32: DECODE gives back what was encoded, builds only messages that
can be constructed, and what it decoded is encoded as the frame again. The frames of 41_command_messages.md R110, R113
and R114 and of 42_report_messages.md R143 and R146 on the way. -/

namespace Sys2Proof

open Machine

/-! The frames of PowerCycler, Led, Bootload and LongPress (R110, R113, R114, R143). -/

theorem decode_powerCycler (cfg : Codec) (slot b : Byte) (rest : Bytes) :
    decode cfg .command ([0x41, slot, b] ++ rest) = .decoded (.powerCycler slot (boolOf b)) 3 :=
  decode_append_fixed (body := [slot, b]) (v := .powerCycler) rest rfl

theorem decode_led (cfg : Codec) (r g b pulse : Byte) (rest : Bytes) :
    decode cfg .command ([0x44, r, g, b, pulse] ++ rest) = .decoded (.led r g b pulse) 5 :=
  decode_append_fixed (body := [r, g, b, pulse]) (v := .led) rest rfl

theorem decode_longPress (cfg : Codec) (rest : Bytes) :
    decode cfg .report ([0x4C] ++ rest) = .decoded .longPress 1 :=
  decode_append_fixed (body := []) (v := .longPress) rest rfl

/-- A legal Bootload tag is dispatched to Bootload: it is none of the other Command tags (R63). -/
theorem lookup_bootload {cfg : Codec} {t : Byte} (hcfg : bootloadTagOk cfg = true) (ht : cfg.bootloadTag = some t) :
    lookup cfg .command t = .fixed 1 .bootload := by
  rw [lookup_command_of_notMem cfg (by simpa using bootloadTagOk_ne hcfg ht), if_pos ht]

theorem decode_bootload {cfg : Codec} {t : Byte} (hcfg : bootloadTagOk cfg = true) (ht : cfg.bootloadTag = some t)
    (rest : Bytes) : decode cfg .command ([t] ++ rest) = .decoded .bootload 1 :=
  decode_append_fixed (body := []) rest (lookup_bootload hcfg ht)

/-- The frame ENCODE gives a Debug message decodes to it, where a length byte can hold the bound (R8, R71). -/
theorem decode_encode_debug {cfg : Codec} (hmax : cfg.debugMaxLen ≤ 255) (d : DebugStr cfg.debugMaxLen)
    (rest : Bytes) : decode cfg .report (encode cfg (.debug d) ++ rest) = .decoded (.debug d) (2 + d.bytes.length) := by
  have hlen : (lenByte d.bytes).toNat = d.bytes.length := lenByte_toNat (d.fits.trans hmax)
  have htake : (d.bytes ++ rest).take (lenByte d.bytes).toNat = d.bytes := by rw [hlen, List.take_left]
  obtain ⟨e, he, hdec⟩ := decode_cons_debug_valid (len := lenByte d.bytes) (payload := d.bytes ++ rest)
    (hlen ▸ d.fits) (by simp [hlen]) (htake.symm ▸ d.valid)
  rw [htake] at he
  rw [encode_debug, List.cons_append, List.cons_append, hdec, DebugStr.eq_of he, hlen]

/-! The round trip (R101). -/

/-- Every message that can be constructed is decoded from its frame, with its own wire size. -/
theorem decode_encode {cfg : Codec} {m : Instr cfg.debugMaxLen} (hcfg : cfg.wellFormed = true)
    (hm : m.constructible cfg = true) (rest : Bytes) :
    decode cfg m.family (encode cfg m ++ rest) = .decoded m m.wireSize := by
  obtain ⟨hmax, htag⟩ := Codec.wellFormed_iff.1 hcfg
  cases m with
  | powerCycler slot state => exact (decode_powerCycler cfg slot _ rest).trans (by rw [boolOf_boolByte]; rfl)
  | brightness target v => exact (decode_brightness cfg target _ _ rest).trans (by rw [be16_hiByte_loByte]; rfl)
  | temperature target v => exact (decode_temperature cfg target _ _ rest).trans (by rw [be16_hiByte_loByte]; rfl)
  | led r g b pulse => exact decode_led cfg r g b pulse rest
  | bootload =>
    obtain ⟨t, ht⟩ := Option.isSome_iff_exists.1 hm
    rw [encode_bootload ht]
    exact decode_bootload htag ht rest
  | heartbeat => exact decode_heartbeat cfg rest
  | dialValue diff => exact (decode_dialValue cfg _ rest).trans (by rw [sext8_bits8 hm]; rfl)
  | press => exact decode_press cfg rest
  | longPress => exact decode_longPress cfg rest
  | emergencyOff => exact decode_emergencyOff cfg rest
  | error code => exact (decode_error cfg _ _ rest).trans (by rw [be16_hiByte_loByte]; rfl)
  | debug d => exact decode_encode_debug hmax d rest

/-- Settles O21: `decode_encode`, one frame format for each message; the size answered is the frame's length. -/
theorem decodeOfEncodeRoundTrips : Obligations.DecodeOfEncodeRoundTrips := by
  rintro cfg F ⟨m, rfl, hm⟩ rest hcfg
  rw [encode_length hm]
  exact decode_encode hcfg hm rest

/-! What DECODE builds (R29 to R32). -/

/-- What a dispatched frame builds can be constructed: a Bootload was dispatched by the tag there is. -/
theorem build_constructible_of_lookup {cfg : Codec} {F : Family} {t : Byte} {n : Nat} {v : FixedVariant}
    (h : lookup cfg F t = .fixed n v) (s : Bytes) : (build v s).constructible cfg = true := by
  cases v with
  | bootload =>
    have hrow := lookup_fixed h
    exact Option.isSome_iff_exists.2 ⟨t, by simp_all⟩
  | dialValue => exact isI8_sext8 _
  | _ => rfl

/-- DECODE answers only messages that can be constructed (R94). -/
theorem decode_decoded_constructible {cfg : Codec} {F : Family} {s : Bytes} {m : Instr cfg.debugMaxLen} {n : Nat}
    (h : decode cfg F s = .decoded m n) : m.constructible cfg = true := by
  rcases decode_decoded h with ⟨t, rest, v, -, hl, -, rfl⟩ | ⟨len, payload, d, -, -, -, -, -, rfl, -⟩
  · exact build_constructible_of_lookup hl _
  · rfl

/-- Settles O20: the family and the constructibility of a decoded message, and the two conditions that the type
`DebugStr` carries. -/
theorem decodeBuildsConstructibleMessages : Obligations.DecodeBuildsConstructibleMessages := by
  refine ⟨fun cfg F s m n h => ⟨decode_decoded_family h, decode_decoded_constructible h⟩, fun k p => ⟨?_, ?_⟩,
    fun _ _ _ => DebugStr.eq_of, fun _ _ => rfl⟩
  · rintro ⟨hfits, hvalid⟩
    exact ⟨{ bytes := p, fits := hfits, valid := hvalid }, rfl⟩
  · rintro ⟨d, rfl⟩
    exact ⟨d.fits, d.valid⟩

/-! Encoding what was decoded (R102). -/

/-- A whole fixed-size frame but a PowerCycler's is what ENCODE writes for the message it builds. -/
theorem encode_build {cfg : Codec} {F : Family} {t : Byte} {v : FixedVariant} {body : Bytes}
    (h : lookup cfg F t = .fixed (body.length + 1) v) (hv : v ≠ .powerCycler) :
    encode cfg (build v (t :: body)) = t :: body := by
  have hsize : body.length + 1 = v.size := lookup_fixed_size h
  have hrow := lookup_fixed h
  cases v with
  | powerCycler => exact absurd rfl hv
  | brightness =>
    obtain rfl : t = 0x42 := by simp_all
    match body, hsize with
    | [target, hi, lo], _ => exact (encode_brightness ..).trans (by rw [wordAt, hiByte_be16, loByte_be16]; rfl)
  | temperature =>
    obtain rfl : t = 0x43 := by simp_all
    match body, hsize with
    | [target, hi, lo], _ => exact (encode_temperature ..).trans (by rw [wordAt, hiByte_be16, loByte_be16]; rfl)
  | led =>
    obtain rfl : t = 0x44 := by simp_all
    match body, hsize with
    | [r, g, b, pulse], _ => rfl
  | dialValue =>
    obtain rfl : t = 0x56 := by simp_all
    match body, hsize with
    | [b], _ => exact (encode_dialValue ..).trans (by rw [bits8_sext8]; rfl)
  | error =>
    obtain rfl : t = 0x45 := by simp_all
    match body, hsize with
    | [hi, lo], _ => exact (encode_error ..).trans (by rw [wordAt, hiByte_be16, loByte_be16]; rfl)
  | bootload =>
    obtain rfl : body = [] := List.length_eq_zero_iff.1 (Nat.succ.inj hsize)
    exact encode_bootload (by simp_all)
  | _ =>
    obtain rfl : body = [] := List.length_eq_zero_iff.1 (Nat.succ.inj hsize)
    simp_all [build, encode]

/-- A PowerCycler frame is written again with its state byte as 0x00 or 0x01 (D8). -/
theorem encode_build_powerCycler {cfg : Codec} {F : Family} {t : Byte} {body : Bytes}
    (h : lookup cfg F t = .fixed (body.length + 1) .powerCycler) :
    ∃ slot b, t :: body = [0x41, slot, b] ∧
      encode cfg (build .powerCycler (t :: body)) = [0x41, slot, if b = 0 then 0x00 else 0x01] := by
  have hrow := lookup_fixed h
  obtain rfl : t = 0x41 := by simp_all
  match body, lookup_fixed_size h with
  | [slot, b], _ => exact ⟨slot, b, rfl, congrArg (fun x => [0x41, slot, x]) (boolByte_boolOf b)⟩

/-- A Debug frame is what ENCODE writes for its payload: the length byte is the payload's length (R71). -/
theorem encode_debug_of_frame {cfg : Codec} {len : Byte} {payload : Bytes} {d : DebugStr cfg.debugMaxLen}
    (hl : len.toNat ≤ payload.length) (hd : d.bytes = payload.take len.toNat) :
    encode cfg (.debug d) = (0x44 :: len :: payload).take (2 + len.toNat) := by
  have hlen : lenByte d.bytes = len := by
    rw [lenByte, hd, List.length_take_of_le hl, BitVec.ofNat_toNat, BitVec.setWidth_eq]
  rw [encode_debug, hlen, hd, Nat.add_comm 2, List.take_succ_cons, List.take_succ_cons]

/-- A fixed-size frame at the front, cut out of the slice. -/
theorem lookup_fixed_frame {cfg : Codec} {F : Family} {t : Byte} {n : Nat} {v : FixedVariant} {rest : Bytes}
    (h : lookup cfg F t = .fixed n v) (hn : n ≤ (t :: rest).length) :
    ∃ body, (t :: rest).take n = t :: body ∧ n = body.length + 1 := by
  obtain ⟨k, rfl⟩ : ∃ k, n = k + 1 := by
    rw [lookup_fixed_size h]
    cases v <;> exact ⟨_, rfl⟩
  exact ⟨rest.take k, List.take_succ_cons, by rw [List.length_take_of_le (Nat.le_of_succ_le_succ hn)]⟩

/-- Settles O22: the frame cut out of the slice is that of a fixed-size variant, of a PowerCycler or of a Debug
message, each encoded again by its lemma. -/
theorem reencodingGivesTheFrameBack : Obligations.ReencodingGivesTheFrameBack := by
  intro cfg F s m n h
  rcases decode_decoded h with ⟨t, rest, v, rfl, hl, hn, rfl⟩ | ⟨len, payload, d, -, rfl, -, hp, hd, rfl, rfl⟩
  · obtain ⟨body, hframe, rfl⟩ := lookup_fixed_frame hl hn
    rw [hframe, build_variant]
    refine ⟨fun hv => encode_build hl fun hpc => hv (congrArg _ hpc), fun hv => ?_⟩
    cases hv
    exact encode_build_powerCycler hl
  · exact ⟨fun _ => encode_debug_of_frame hp hd, nofun⟩

/-! The statements on single frames. -/

/-- Settles O6: the two letters are dispatched to LongPress and to no frame. -/
theorem longPressFrameAndNoRelease : Obligations.LongPressFrameAndNoRelease := fun cfg rest =>
  ⟨decode_longPress cfg rest, rfl, decode_cons_none rest (lookup_report_of_notMem cfg (by decide))⟩

/-- Settles O10: the whole frame by `decode_powerCycler`, a frame cut short by `decode_cons_fixed_short`. -/
theorem powerCyclerFrame : Obligations.PowerCyclerFrame := by
  intro cfg slot b state rest short hshort
  have hbool : boolOf b = decide (b ≠ 0) := by simp [boolOf, bne, beq_eq_decide]
  rw [← hbool]
  exact ⟨decode_powerCycler cfg slot b rest,
    decode_cons_fixed_short (v := .powerCycler) rfl (Nat.succ_lt_succ hshort), rfl⟩

/-- Settles O11: the whole frame by `decode_led`, a frame cut short by `decode_cons_fixed_short`. -/
theorem ledFrame : Obligations.LedFrame := fun cfg r g b pulse rest _ hshort =>
  ⟨decode_led cfg r g b pulse rest, decode_cons_fixed_short (v := .led) rfl (Nat.succ_lt_succ hshort), rfl⟩

/-- Settles O12: `decode_bootload` where there is a tag; where there is none, a decoded Bootload could be
constructed and cannot. -/
theorem bootloadFrame : Obligations.BootloadFrame := by
  constructor
  · intro cfg t rest ht hcfg
    exact ⟨decode_bootload hcfg ht rest, encode_bootload ht, Option.isSome_iff_exists.2 ⟨t, ht⟩⟩
  · intro cfg F s n hnone
    have hnot : Instr.constructible cfg .bootload = false := by simp [Instr.constructible, hnone]
    refine ⟨fun h => ?_, hnot⟩
    rw [decode_decoded_constructible h] at hnot
    cases hnot

/-- Settles O13: the tests of `decode_cons_debug` in their order; a length byte is at most 255. -/
theorem debugFrameChecksInOrder : Obligations.DebugFrameChecksInOrder := by
  refine ⟨decode_debug_tag, fun cfg len payload => ⟨fun hbig => ?_, fun hm hshort => ?_, fun hm hl hv => ?_,
    fun hm hl hv => decode_cons_debug_invalid hm hl hv⟩, fun cfg s hmax h => ?_⟩
  · rw [decode_cons_debug, if_pos hbig]
  · exact (decode_cons_debug_incomplete_iff hm).2 hshort
  · exact decode_cons_debug_valid hm hl hv
  · rcases decode_malformed h with ⟨hr, -⟩ | ⟨len, payload, -, -, ⟨-, hbig⟩ | ⟨hr, -⟩⟩
    · cases hr
    · have hbyte := len.isLt
      omega
    · cases hr

end Sys2Proof

/-! SUPPORT. 40_codec.md R94 to R97 and R103, and 30_encoding.md R72: when DECODE waits, from which bytes each of its
answers is read, and so which answers stand when more bytes arrive. -/

namespace Sys2Proof

open Machine

/-! Which bytes a Decoded answer is read from (R94). -/

section

variable {cfg : Codec} {F : Family} {s : Bytes} {m : Instr cfg.debugMaxLen} {n : Nat}

theorem decode_decoded_pos (h : decode cfg F s = .decoded m n) : 1 ≤ n :=
  decode_decoded_wireSize h ▸ m.wireSize_pos

theorem decode_decoded_le_length (h : decode cfg F s = .decoded m n) : n ≤ s.length := by
  rcases decode_decoded h with ⟨t, rest, v, -, -, hn, -⟩ | ⟨len, payload, d, -, rfl, -, hp, -, -, rfl⟩
  · exact hn
  · simp only [List.length_cons]
    omega

theorem decode_decoded_le_maxWire (h : decode cfg F s = .decoded m n) : n ≤ maxWire cfg F :=
  decode_decoded_wireSize h ▸ decode_decoded_family h ▸ m.wireSize_le_maxWire cfg

/-- The frame alone decides: whatever stands behind it, DECODE answers the same. -/
theorem decode_take_append (h : decode cfg F s = .decoded m n) (u : Bytes) :
    decode cfg F (s.take n ++ u) = .decoded m n := by
  rcases decode_decoded h with ⟨t, rest, v, rfl, hl, hn, rfl⟩ | ⟨len, payload, d, rfl, rfl, hm, hp, hd, rfl, rfl⟩
  · obtain ⟨body, hframe, rfl⟩ := lookup_fixed_frame hl hn
    rw [hframe]
    exact decode_append_fixed u hl
  · have hframe : (payload.take len.toNat ++ u).take len.toNat = payload.take len.toNat :=
      List.take_left' (List.length_take_of_le hp)
    obtain ⟨e, he, hdec⟩ := decode_cons_debug_valid (payload := payload.take len.toNat ++ u) hm
      (by simp only [List.length_append, List.length_take]; omega) (by rw [hframe, ← hd]; exact d.valid)
    rw [Nat.add_comm 2, List.take_succ_cons, List.take_succ_cons, List.cons_append, List.cons_append, hdec,
      DebugStr.eq_of (he.trans (hframe.trans hd.symm)), Nat.add_comm 2]

/-- A Decoded answer stands when more bytes arrive (R97). -/
theorem decode_append_decoded (h : decode cfg F s = .decoded m n) (u : Bytes) :
    decode cfg F (s ++ u) = .decoded m n := by
  rw [← List.take_append_drop n s, List.append_assoc]
  exact decode_take_append h _

end

/-- Settles O17: the frame is whole, has the wire size of its message, and decides alone. -/
theorem decodedFrameBounds : Obligations.DecodedFrameBounds := fun _ _ _ _ _ h =>
  ⟨decode_decoded_pos h, decode_decoded_le_length h, (decode_decoded_wireSize h).symm, decode_decoded_le_maxWire h,
    decode_take_append h⟩

/-! Which bytes a Malformed answer is read from (R103). -/

section

variable {cfg : Codec} {F : Family} {s : Bytes}

theorem decode_take_append_badTag (h : decode cfg F s = .malformed .badTag) (u : Bytes) :
    decode cfg F (s.take 1 ++ u) = .malformed .badTag := by
  rcases decode_malformed h with ⟨-, t, rest, rfl, hl⟩ | ⟨len, payload, -, -, ⟨hr, -⟩ | ⟨hr, -⟩⟩
  · exact decode_cons_none u hl
  · cases hr
  · cases hr

theorem decode_take_append_badLength (h : decode cfg F s = .malformed .badLength) (u : Bytes) :
    decode cfg F (s.take 2 ++ u) = .malformed .badLength := by
  rcases decode_malformed h with ⟨hr, -⟩ | ⟨len, payload, rfl, rfl, ⟨-, hbig⟩ | ⟨hr, -⟩⟩
  · cases hr
  · exact (decode_cons_debug cfg len u).trans (if_pos hbig)
  · cases hr

theorem decode_take_append_badUtf8 (h : decode cfg F s = .malformed .badUtf8) : ∃ t len, s.take 2 = [t, len] ∧
    2 + len.toNat ≤ s.length ∧ ∀ u, decode cfg F (s.take (2 + len.toNat) ++ u) = .malformed .badUtf8 := by
  rcases decode_malformed h with ⟨hr, -⟩ | ⟨len, payload, rfl, rfl, ⟨hr, -⟩ | ⟨-, hm, hp, hv⟩⟩
  · cases hr
  · cases hr
  · refine ⟨0x44, len, rfl, by simp only [List.length_cons]; omega, fun u => ?_⟩
    rw [Nat.add_comm 2, List.take_succ_cons, List.take_succ_cons, List.cons_append, List.cons_append]
    refine decode_cons_debug_invalid hm (by simp only [List.length_append, List.length_take]; omega) ?_
    rwa [List.take_left' (List.length_take_of_le hp)]

/-- A Malformed answer is read from some front of the slice. -/
theorem decode_malformed_front {r : Reason} (h : decode cfg F s = .malformed r) :
    ∃ k, ∀ u, decode cfg F (s.take k ++ u) = .malformed r := by
  cases r with
  | badTag => exact ⟨1, decode_take_append_badTag h⟩
  | badLength => exact ⟨2, decode_take_append_badLength h⟩
  | badUtf8 =>
    obtain ⟨t, len, -, -, hstable⟩ := decode_take_append_badUtf8 h
    exact ⟨2 + len.toNat, hstable⟩

/-- A Malformed answer stands when more bytes arrive (R97). -/
theorem decode_append_malformed {r : Reason} (h : decode cfg F s = .malformed r) (u : Bytes) :
    decode cfg F (s ++ u) = .malformed r := by
  obtain ⟨k, hk⟩ := decode_malformed_front h
  rw [← List.take_append_drop k s, List.append_assoc]
  exact hk _

end

/-- Settles O19: one lemma for each reason. -/
theorem malformedReadsOnlyTheFront : Obligations.MalformedReadsOnlyTheFront := by
  refine fun cfg F s u => ⟨(decode_take_append_badTag · u), (decode_take_append_badLength · u), fun h => ?_⟩
  obtain ⟨t, len, htake, hlen, hstable⟩ := decode_take_append_badUtf8 h
  exact ⟨t, len, htake, hlen, hstable u⟩

/-! The empty slice can become anything (R97). -/

theorem decode_nil (cfg : Codec) (F : Family) : decode cfg F [] = .incomplete := rfl

/-- In each family some byte is no tag, whatever the Bootload tag is. -/
theorem exists_lookup_none (cfg : Codec) (F : Family) : ∃ t, lookup cfg F t = .none := by
  cases F with
  | command =>
    by_cases hzero : cfg.bootloadTag = some 0x00
    · exact ⟨0x01, by rw [lookup_command_of_notMem cfg (by decide), if_neg (by simp [hzero])]⟩
    · exact ⟨0x00, by rw [lookup_command_of_notMem cfg (by decide), if_neg hzero]⟩
  | report => exact ⟨0x00, rfl⟩

/-- In each family some slice is a frame. -/
theorem exists_decode_decoded (cfg : Codec) (F : Family) : ∃ s m n, decode cfg F s = .decoded m n := by
  cases F with
  | command => exact ⟨_, _, _, decode_powerCycler cfg 0x00 0x00 []⟩
  | report => exact ⟨_, _, _, decode_heartbeat cfg []⟩

/-- Settles O18: Decoded and Malformed stand by the two lemmas; the empty slice followed by nothing, by a frame and
by a byte that is no tag has the three outcomes. -/
theorem outcomesArePrefixStable : Obligations.OutcomesArePrefixStable := by
  refine ⟨fun cfg F s u => ⟨fun m n h => decode_append_decoded h u, fun r h => decode_append_malformed h u⟩,
    fun cfg F => ?_⟩
  obtain ⟨frame, m, n, hframe⟩ := exists_decode_decoded cfg F
  obtain ⟨t, ht⟩ := exists_lookup_none cfg F
  exact ⟨[], [], frame, [t], m, n, .badTag, decode_nil cfg F, decode_nil cfg F, hframe, decode_cons_none [] ht⟩

/-! When DECODE waits (R95). -/

/-- Every way DECODE can answer `Incomplete`: nothing, a fixed-size frame cut short, or a Debug frame without its
length or its whole payload. -/
theorem decode_incomplete {cfg : Codec} {F : Family} {s : Bytes} (h : decode cfg F s = .incomplete) :
    s = [] ∨ (∃ t rest n v, s = t :: rest ∧ lookup cfg F t = .fixed n v ∧ s.length < n) ∨
    (F = .report ∧ s = [0x44]) ∨
    (∃ len payload, F = .report ∧ s = 0x44 :: len :: payload ∧ len.toNat ≤ cfg.debugMaxLen ∧
      s.length < 2 + len.toNat) := by
  cases s with
  | nil => exact .inl rfl
  | cons t rest =>
    cases hl : lookup cfg F t with
    | none => rw [decode_cons_none rest hl] at h; cases h
    | fixed n v =>
      rw [decode_cons_fixed rest hl] at h
      split at h
      · exact .inr (.inl ⟨t, rest, n, v, rfl, hl, ‹_›⟩)
      · cases h
    | lengthPrefixed =>
      obtain ⟨rfl, rfl⟩ := lookup_lengthPrefixed.1 hl
      cases rest with
      | nil => exact .inr (.inr (.inl ⟨rfl, rfl⟩))
      | cons len payload =>
        have hm : len.toNat ≤ cfg.debugMaxLen := by
          by_contra hbig
          rw [decode_cons_debug, if_pos (Nat.lt_of_not_le hbig)] at h
          cases h
        have hshort := (decode_cons_debug_incomplete_iff hm).1 h
        exact .inr (.inr (.inr ⟨len, payload, rfl, rfl, hm, by simp only [List.length_cons]; omega⟩))

/-- Settles O16: `decode_incomplete`, and in each of its cases DECODE does wait. -/
theorem incompleteExactlyWhen : Obligations.IncompleteExactlyWhen := by
  refine fun cfg F s => ⟨decode_incomplete, ?_⟩
  rintro (rfl | ⟨t, rest, n, v, rfl, hl, hn⟩ | ⟨rfl, rfl⟩ | ⟨len, payload, rfl, rfl, hm, hshort⟩)
  · exact decode_nil cfg F
  · exact decode_cons_fixed_short hl hn
  · exact decode_debug_tag cfg
  · refine (decode_cons_debug_incomplete_iff hm).2 ?_
    simp only [List.length_cons] at hshort
    omega

/-- The dispatch gives no frame larger than the largest message of the family (R8). -/
theorem lookup_fixed_le_maxWire {cfg : Codec} {F : Family} {t : Byte} {n : Nat} {v : FixedVariant}
    (h : lookup cfg F t = .fixed n v) : n ≤ maxWire cfg F := by
  have hbuilt := (build (n := cfg.debugMaxLen) v []).wireSize_le_maxWire cfg
  rwa [build_wireSize, ← lookup_fixed_size h, build_family_of_lookup h] at hbuilt

/-- What waits is shorter than the largest frame of the family (R192). -/
theorem decode_incomplete_length_lt {cfg : Codec} {F : Family} {s : Bytes} (h : decode cfg F s = .incomplete) :
    s.length < maxWire cfg F := by
  have hthree := three_le_maxWire cfg F
  rcases decode_incomplete h with rfl | ⟨t, rest, n, v, rfl, hl, hn⟩ | ⟨rfl, rfl⟩ |
    ⟨len, payload, rfl, rfl, hm, hshort⟩
  · exact Nat.lt_of_lt_of_le (by decide) hthree
  · exact Nat.lt_of_lt_of_le hn (lookup_fixed_le_maxWire hl)
  · exact Nat.lt_of_lt_of_le (by decide) hthree
  · exact Nat.lt_of_lt_of_le hshort ((Nat.add_le_add_left hm 2).trans (Nat.le_max_right ..))

/-! The number of illegal tags (R72). -/

/-- DECODE answers BAD_TAG to a byte exactly where the dispatch has no frame for it. -/
theorem decode_singleton_badTag_iff {cfg : Codec} {F : Family} {t : Byte} :
    decode cfg F [t] = .malformed .badTag ↔ lookup cfg F t = .none := by
  refine ⟨fun h => ?_, decode_cons_none []⟩
  rcases decode_malformed h with ⟨-, t', rest, hs, hl⟩ | ⟨len, payload, -, hs, -⟩
  · cases hs
    exact hl
  · cases hs

/-- Of the 256 byte values, those outside a list without repetitions. -/
theorem length_filter_notMem {tags : List Byte} (hnodup : tags.Nodup) :
    ((List.range 256).filter fun k => decide (BitVec.ofNat 8 k ∉ tags)).length = 256 - tags.length := by
  have hperm : ((List.range 256).filter fun k => decide (BitVec.ofNat 8 k ∈ tags)).Perm (tags.map BitVec.toNat) := by
    refine (List.perm_ext_iff_of_nodup (List.nodup_range.filter _)
      (hnodup.map fun _ _ => BitVec.eq_of_toNat_eq)).2 fun k => ?_
    simp only [List.mem_filter, List.mem_range, decide_eq_true_eq, List.mem_map]
    constructor
    · rintro ⟨hk, hmem⟩
      exact ⟨_, hmem, (BitVec.toNat_ofNat ..).trans (Nat.mod_eq_of_lt hk)⟩
    · rintro ⟨t, hmem, rfl⟩
      exact ⟨t.isLt, by rwa [BitVec.ofNat_toNat, BitVec.setWidth_eq]⟩
  have hsum := List.length_eq_length_filter_add (l := List.range 256) fun k => decide (BitVec.ofNat 8 k ∈ tags)
  rw [hperm.length_eq, List.length_map, List.length_range] at hsum
  simp only [decide_not]
  omega

/-- Where the tags of a family are listed without repetitions, all other byte values are illegal. -/
theorem length_filter_badTag {cfg : Codec} {F : Family} {tags : List Byte} (hnodup : tags.Nodup)
    (htags : ∀ t, lookup cfg F t = .none ↔ t ∉ tags) :
    ((List.range 256).filter fun k =>
      decide (decode cfg F [BitVec.ofNat 8 k] = .malformed .badTag)).length = 256 - tags.length := by
  simp only [decode_singleton_badTag_iff, htags]
  exact length_filter_notMem hnodup

/-- The bytes that are no tag of the family (R61, R62). -/
theorem lookup_command_eq_none_iff {cfg : Codec} {t : Byte} : lookup cfg .command t = .none ↔
    t ∉ [(0x41 : Byte), 0x42, 0x43, 0x44] ∧ cfg.bootloadTag ≠ some t := by
  simp only [lookup]
  (repeat' split) <;> simp_all

theorem lookup_report_eq_none_iff {cfg : Codec} {t : Byte} : lookup cfg .report t = .none ↔
    t ∉ [(0x48 : Byte), 0x56, 0x50, 0x4C, 0x58, 0x45, 0x44] := by
  simp only [lookup]
  (repeat' split) <;> simp_all

/-- Settles O3: there are 4 Command tags, 5 with a legal Bootload tag, and 7 Report tags. -/
theorem illegalTagCounts : Obligations.IllegalTagCounts := by
  refine ⟨fun cfg hnone => length_filter_badTag (tags := [0x41, 0x42, 0x43, 0x44]) (by decide) fun t => ?_,
    fun cfg t ht hcfg => length_filter_badTag (tags := [t, 0x41, 0x42, 0x43, 0x44]) ?_ fun t' => ?_,
    fun cfg => length_filter_badTag (tags := [0x48, 0x56, 0x50, 0x4C, 0x58, 0x45, 0x44]) (by decide)
      fun t => lookup_report_eq_none_iff⟩
  · simp [lookup_command_eq_none_iff, hnone]
  · exact List.nodup_cons.2 ⟨by simpa using bootloadTagOk_ne hcfg ht, by decide⟩
  · rw [lookup_command_eq_none_iff, ht, ne_eq, Option.some_inj, and_comm, eq_comm, ← not_or, ← List.mem_cons]

end Sys2Proof

/-! SUPPORT. 42_report_messages.md R149: `utf8_valid` accepts exactly the sequences of UTF-8 forms of Unicode scalar
values. Between the two stands the well-formed character, whose bytes the table bounds and whose bytes are the form of
one scalar value. -/

namespace Sys2Proof

open Machine

theorem Machine.inRange_iff {lo hi b : Byte} :
    inRange lo hi b = true ↔ lo.toNat ≤ b.toNat ∧ b.toNat ≤ hi.toNat := by
  simp [inRange]

/-- `b` may stand behind the lead byte of a character. -/
def IsContinuation (b : Byte) : Prop := 0x80 ≤ b.toNat ∧ b.toNat ≤ 0xBF

/-- A well-formed UTF-8 character: no overlong form, no surrogate and nothing above U+10FFFF. -/
inductive IsCharacter : Bytes → Prop
  | one {b : Byte} (hb : b.toNat ≤ 0x7F) : IsCharacter [b]
  | two {b c : Byte} (hb : 0xC2 ≤ b.toNat ∧ b.toNat ≤ 0xDF) (hc : IsContinuation c) : IsCharacter [b, c]
  | three {b c d : Byte} (hb : 0xE0 ≤ b.toNat ∧ b.toNat ≤ 0xEF) (hc : IsContinuation c)
      (hlong : b.toNat = 0xE0 → 0xA0 ≤ c.toNat) (hsurrogate : b.toNat = 0xED → c.toNat ≤ 0x9F)
      (hd : IsContinuation d) : IsCharacter [b, c, d]
  | four {b c d e : Byte} (hb : 0xF0 ≤ b.toNat ∧ b.toNat ≤ 0xF4) (hc : IsContinuation c)
      (hlong : b.toNat = 0xF0 → 0x90 ≤ c.toNat) (hmax : b.toNat = 0xF4 → c.toNat ≤ 0x8F)
      (hd : IsContinuation d) (he : IsContinuation e) : IsCharacter [b, c, d, e]

theorem isContinuation_iff {b : Byte} : inRange 0x80 0xBF b = true ↔ IsContinuation b := inRange_iff

/-! The lead-byte table, read as bounds on the first two bytes of a character: in each of its rows the number of bytes
and the two bounds are numerals. -/

section

variable {b c : Byte}

theorem utf8Lead_two_iff : (∃ lo hi, utf8Lead b = some (2, lo, hi) ∧ inRange lo hi c = true) ↔
    (0xC2 ≤ b.toNat ∧ b.toNat ≤ 0xDF) ∧ IsContinuation c := by
  simp only [utf8Lead, inRange_iff, IsContinuation, BitVec.reduceToNat]
  (repeat' split) <;> simp <;> omega

theorem utf8Lead_three_iff : (∃ lo hi, utf8Lead b = some (3, lo, hi) ∧ inRange lo hi c = true) ↔
    (0xE0 ≤ b.toNat ∧ b.toNat ≤ 0xEF) ∧ IsContinuation c ∧
      (b.toNat = 0xE0 → 0xA0 ≤ c.toNat) ∧ (b.toNat = 0xED → c.toNat ≤ 0x9F) := by
  simp only [utf8Lead, inRange_iff, IsContinuation, BitVec.reduceToNat]
  (repeat' split) <;> simp <;> omega

theorem utf8Lead_four_iff : (∃ lo hi, utf8Lead b = some (4, lo, hi) ∧ inRange lo hi c = true) ↔
    (0xF0 ≤ b.toNat ∧ b.toNat ≤ 0xF4) ∧ IsContinuation c ∧
      (b.toNat = 0xF0 → 0x90 ≤ c.toNat) ∧ (b.toNat = 0xF4 → c.toNat ≤ 0x8F) := by
  simp only [utf8Lead, inRange_iff, IsContinuation, BitVec.reduceToNat]
  (repeat' split) <;> simp <;> omega

end

/-! `utf8_valid` takes one well-formed character after the other. -/

/-- A well-formed character in front changes nothing. -/
theorem IsCharacter.utf8Valid_append {ch : Bytes} (h : IsCharacter ch) (rest : Bytes) :
    utf8Valid (ch ++ rest) = utf8Valid rest := by
  cases h with
  | one hb => exact (utf8Valid.eq_def _).trans (if_pos hb)
  | two hb hc =>
    obtain ⟨lo, hi, hlead, hin⟩ := utf8Lead_two_iff.2 ⟨hb, hc⟩
    refine (utf8Valid.eq_def _).trans ((if_neg (by omega)).trans ?_)
    simp only [hlead, hin, Bool.true_and, List.append_eq, List.cons_append,
      List.nil_append]
  | three hb hc hlong hsurrogate hd =>
    obtain ⟨lo, hi, hlead, hin⟩ := utf8Lead_three_iff.2 ⟨hb, hc, hlong, hsurrogate⟩
    refine (utf8Valid.eq_def _).trans ((if_neg (by omega)).trans ?_)
    simp only [hlead, hin, isContinuation_iff.2 hd, Bool.true_and, List.append_eq, List.cons_append,
      List.nil_append]
  | four hb hc hlong hmax hd he =>
    obtain ⟨lo, hi, hlead, hin⟩ := utf8Lead_four_iff.2 ⟨hb, hc, hlong, hmax⟩
    refine (utf8Valid.eq_def _).trans ((if_neg (by omega)).trans ?_)
    simp only [hlead, hin, isContinuation_iff.2 hd, isContinuation_iff.2 he, Bool.true_and, List.append_eq,
      List.cons_append, List.nil_append]

/-- What is valid and not empty begins with a well-formed character. -/
theorem utf8Valid_cons_split {b : Byte} {rest : Bytes} (h : utf8Valid (b :: rest) = true) :
    ∃ ch tail, b :: rest = ch ++ tail ∧ IsCharacter ch ∧ utf8Valid tail = true := by
  rw [utf8Valid.eq_def] at h
  dsimp only at h
  split at h
  · exact ⟨[b], rest, rfl, .one ‹_›, h⟩
  · split at h
    · next lo hi c tail hlead =>
      obtain ⟨hin, hv⟩ := Bool.and_eq_true_iff.1 h
      obtain ⟨hb, hc⟩ := utf8Lead_two_iff.1 ⟨lo, hi, hlead, hin⟩
      exact ⟨[b, c], tail, rfl, .two hb hc, hv⟩
    · next lo hi c d tail hlead =>
      simp only [Bool.and_eq_true, isContinuation_iff] at h
      obtain ⟨⟨hin, hd⟩, hv⟩ := h
      obtain ⟨hb, hc, hlong, hsurrogate⟩ := utf8Lead_three_iff.1 ⟨lo, hi, hlead, hin⟩
      exact ⟨[b, c, d], tail, rfl, .three hb hc hlong hsurrogate hd, hv⟩
    · next lo hi c d e tail hlead =>
      simp only [Bool.and_eq_true, isContinuation_iff] at h
      obtain ⟨⟨⟨hin, hd⟩, he⟩, hv⟩ := h
      obtain ⟨hb, hc, hlong, hmax⟩ := utf8Lead_four_iff.1 ⟨lo, hi, hlead, hin⟩
      exact ⟨[b, c, d, e], tail, rfl, .four hb hc hlong hmax hd he, hv⟩
    · cases h

/-! A well-formed character is the form of one scalar value. -/

theorem isCharacter_scalarBytes {c : Nat} (h : IsScalar c) : IsCharacter (scalarBytes c) := by
  unfold IsScalar at h
  unfold scalarBytes
  split_ifs
  · exact .one (by simp only [BitVec.toNat_ofNat]; omega)
  · exact .two (by simp only [BitVec.toNat_ofNat]; omega) (by simp only [IsContinuation, BitVec.toNat_ofNat]; omega)
  · constructor <;> simp only [IsContinuation, BitVec.toNat_ofNat] <;> omega
  · constructor <;> simp only [IsContinuation, BitVec.toNat_ofNat] <;> omega

/-- A number below 256 as a byte. -/
theorem ofNat_eq_byte {b : Byte} {k : Nat} (h : k = b.toNat) : BitVec.ofNat 8 k = b := by
  rw [h, BitVec.ofNat_toNat, BitVec.setWidth_eq]

theorem IsCharacter.exists_scalar {ch : Bytes} (h : IsCharacter ch) : ∃ c, IsScalar c ∧ ch = scalarBytes c := by
  cases h with
  | @one b hb =>
    refine ⟨b.toNat, .inl (by omega), ?_⟩
    rw [scalarBytes, if_pos (by omega), ofNat_eq_byte rfl]
  | @two b c hb hc =>
    unfold IsContinuation at hc
    refine ⟨(b.toNat - 0xC0) * 64 + (c.toNat - 0x80), .inl (by omega), ?_⟩
    rw [scalarBytes, if_neg (by omega), if_pos (by omega), ofNat_eq_byte (b := b) (by omega),
      ofNat_eq_byte (b := c) (by omega)]
  | @three b c d hb hc hlong hsurrogate hd =>
    unfold IsContinuation at hc hd
    refine ⟨(b.toNat - 0xE0) * 4096 + (c.toNat - 0x80) * 64 + (d.toNat - 0x80), by unfold IsScalar; omega, ?_⟩
    rw [scalarBytes, if_neg (by omega), if_neg (by omega), if_pos (by omega), ofNat_eq_byte (b := b) (by omega),
      ofNat_eq_byte (b := c) (by omega), ofNat_eq_byte (b := d) (by omega)]
  | @four b c d e hb hc hlong hmax hd he =>
    unfold IsContinuation at hc hd he
    refine ⟨(b.toNat - 0xF0) * 262144 + (c.toNat - 0x80) * 4096 + (d.toNat - 0x80) * 64 + (e.toNat - 0x80),
      by unfold IsScalar; omega, ?_⟩
    rw [scalarBytes, if_neg (by omega), if_neg (by omega), if_neg (by omega), ofNat_eq_byte (b := b) (by omega),
      ofNat_eq_byte (b := c) (by omega), ofNat_eq_byte (b := d) (by omega), ofNat_eq_byte (b := e) (by omega)]

/-! Sequences. -/

/-- What `utf8_valid` accepts is read off one character at a time, each of which has a byte. -/
theorem exists_scalars_of_utf8Valid (p : Bytes) (h : utf8Valid p = true) :
    ∃ cs : List Nat, (∀ c ∈ cs, IsScalar c) ∧ p = cs.flatMap scalarBytes := by
  match p with
  | [] => exact ⟨[], by simp, rfl⟩
  | b :: rest =>
    obtain ⟨ch, tail, hsplit, hch, hv⟩ := utf8Valid_cons_split h
    obtain ⟨c, hc, hbytes⟩ := hch.exists_scalar
    have hshorter : tail.length < (b :: rest).length := by
      rw [hsplit, List.length_append]
      cases hch <;> simp
    obtain ⟨cs, hcs, htail⟩ := exists_scalars_of_utf8Valid tail hv
    exact ⟨c :: cs, List.forall_mem_cons.2 ⟨hc, hcs⟩, by rw [hsplit, hbytes, htail, List.flatMap_cons]⟩
termination_by p.length
decreasing_by exact hshorter

/-- Settles O15: from left to right by `exists_scalars_of_utf8Valid`, from right to left by induction on the scalar
values. -/
theorem utf8ValidIsScalarSequences : Obligations.Utf8ValidIsScalarSequences := by
  refine fun p => ⟨exists_scalars_of_utf8Valid p, ?_⟩
  rintro ⟨cs, hcs, rfl⟩
  induction cs with
  | nil => rfl
  | cons c cs ih =>
    obtain ⟨hc, hcs⟩ := List.forall_mem_cons.1 hcs
    rw [List.flatMap_cons, (isCharacter_scalarBytes hc).utf8Valid_append]
    exact ih hcs

end Sys2Proof

/-! SUPPORT. 43_reader.md R182 to R186 and R188: one equation for the FEED or FEED_BYTE that fits and one for that which
does not, and what they say of responses and buffers (R192 to R198). -/

namespace Sys2Proof

open Machine

/-! The greedy parse up to a bound. -/

/-- A parse ends at its bound, or at a front that waits, or at a Malformed front. -/
theorem parseUpTo_ends (cfg : Codec) (F : Family) (k : Nat) (S : Bytes) :
    (parseUpTo cfg F k S).1.length = k ∨
    (parseUpTo cfg F k S).1.length < k ∧
      (decode cfg F (parseUpTo cfg F k S).2 = .incomplete ∨
        ∃ r, decode cfg F (parseUpTo cfg F k S).2 = .malformed r) :=
  (Nat.eq_or_lt_of_le (parseUpTo_length cfg F k S)).imp_right fun h => ⟨h, parseUpTo_settled cfg F k S h⟩

/-- The parsed messages are of the family and can be constructed. -/
theorem parseUpTo_messages {cfg : Codec} {F : Family} {k : Nat} {S : Bytes} :
    ∀ m ∈ (parseUpTo cfg F k S).1, m.family = F ∧ m.constructible cfg = true := by
  induction k generalizing S with
  | zero => simp [parseUpTo]
  | succ k ih =>
    cases hd : decode cfg F S with
    | incomplete => simp [parseUpTo_incomplete _ hd]
    | malformed r => simp [parseUpTo_malformed _ hd]
    | decoded m n =>
      rw [parseUpTo_decoded k hd]
      exact List.forall_mem_cons.2 ⟨⟨decode_decoded_family hd, decode_decoded_constructible hd⟩, ih⟩

/-- Every parsed message took a byte. -/
theorem parseUpTo_length_add_rest_le (cfg : Codec) (F : Family) (k : Nat) (S : Bytes) :
    (parseUpTo cfg F k S).1.length + (parseUpTo cfg F k S).2.length ≤ S.length := by
  induction k generalizing S with
  | zero => simp [parseUpTo]
  | succ k ih =>
    cases hd : decode cfg F S with
    | incomplete => simp [parseUpTo_incomplete _ hd]
    | malformed r => simp [parseUpTo_malformed _ hd]
    | decoded m n =>
      have htail := ih (S.drop n)
      have hpos := decode_decoded_pos hd
      have hle := decode_decoded_le_length hd
      simp only [List.length_drop] at htail
      simp only [parseUpTo_decoded k hd, List.length_cons]
      omega

/-! The answer of a FEED_CORE (R184 to R186). -/

/-- What a FEED_CORE with this bound answers where it parsed these messages and left this rest: at the bound the rest
is not looked at (R186); below it, a Malformed rest is a fault that counts the lost messages (R185). -/
def feedAnswer (cfg : Codec) (F : Family) (bound : Nat) (ms : List (Instr cfg.debugMaxLen)) (rest : Bytes) :
    Response cfg.debugMaxLen :=
  if ms.length = bound then .messages ms
  else
    match decode cfg F rest with
    | .malformed r => .fault { kind := .malformed, reason := some r, discarded := ms.length }
    | .incomplete => .messages ms
    | .decoded _ _ => .messages ms

section

variable {cfg : Codec} {F : Family} {bound : Nat} {ms : List (Instr cfg.debugMaxLen)} {rest : Bytes}

theorem feedAnswer_full (h : ms.length = bound) : feedAnswer cfg F bound ms rest = .messages ms := if_pos h

theorem feedAnswer_incomplete (h : decode cfg F rest = .incomplete) :
    feedAnswer cfg F bound ms rest = .messages ms := by
  simp [feedAnswer, h]

theorem feedAnswer_malformed {r : Reason} (hlt : ms.length < bound) (h : decode cfg F rest = .malformed r) :
    feedAnswer cfg F bound ms rest = .fault { kind := .malformed, reason := some r, discarded := ms.length } := by
  simp [feedAnswer, h, Nat.ne_of_lt hlt]

end

namespace Machine

/-- The loop leaves what the greedy parse leaves, and answers for the messages there were and the parsed ones. -/
theorem feedLoop_eq {cfg : Codec} {F : Family} {k : Nat} {s : State cfg.debugMaxLen} {b : Bytes}
    (hb : s.buf F = some b) : feedLoop cfg F k s = .next ((s.setBuf F (parseUpTo cfg F k b).2).respond
      (feedAnswer cfg F (s.outq.length + k) (s.outq ++ (parseUpTo cfg F k b).1) (parseUpTo cfg F k b).2)) := by
  induction k generalizing s b with
  | zero => simp [feedLoop, returnOut_eq, parseUpTo, feedAnswer_full, State.setBuf_same hb]
  | succ k ih =>
    cases hd : decode cfg F b with
    | incomplete =>
      rw [feedLoop_incomplete k hb hd, parseUpTo_incomplete _ hd, feedAnswer_incomplete hd, State.setBuf_same hb,
        List.append_nil]
    | malformed r =>
      rw [feedLoop_malformed k hb hd, parseUpTo_malformed _ hd, feedAnswer_malformed (by simp) hd,
        State.setBuf_same hb, List.append_nil]
    | decoded m n =>
      rw [feedLoop_decoded k hb hd, parseUpTo_decoded k hd, ih (b := b.drop n) (by simp)]
      simp [Nat.add_assoc, Nat.add_comm 1]

section

variable {p : Params} {F : Family} {s : StateOf p} {t : TxnOf p} {b input : Bytes} {bound : Nat}

/-- A FEED or FEED_BYTE that does not fit (R183). -/
theorem stepWith_post_full (ht : FeedsAs p F t input bound) (hb : s.buf F = some b) (hp : p.wellFormed F = true)
    (h : (p.sizes F).cap < b.length + input.length) : stepWith p (s.post t) =
      .next (s.respond (.fault { kind := .bufferFull, reason := none, discarded := 0 })) := by
  rw [stepWith_post, request_of_wellFormed (ht.family ▸ hp), ht.perform, feedCore_full bound hb h]

/-- A FEED or FEED_BYTE that fits, as the loop on the buffer with the batch behind it (R182). -/
theorem stepWith_post_feedLoop (ht : FeedsAs p F t input bound) (hb : s.buf F = some b) (hp : p.wellFormed F = true)
    (h : b.length + input.length ≤ (p.sizes F).cap) : stepWith p (s.post t) =
      feedLoop p.codec F bound ((s.setBuf F (b ++ input)).clearOut) := by
  rw [stepWith_post, request_of_wellFormed (ht.family ▸ hp), ht.perform, feedCore_fits bound hb h]

/-- A FEED or FEED_BYTE that fits, as the greedy parse (R182 to R186, R188). -/
theorem stepWith_post_fits (ht : FeedsAs p F t input bound) (hb : s.buf F = some b) (hp : p.wellFormed F = true)
    (h : b.length + input.length ≤ (p.sizes F).cap) : stepWith p (s.post t) =
      .next ((s.setBuf F (parseUpTo p.codec F bound (b ++ input)).2).respond
        (feedAnswer p.codec F bound (parseUpTo p.codec F bound (b ++ input)).1
          (parseUpTo p.codec F bound (b ++ input)).2)) := by
  rw [stepWith_post_feedLoop ht hb hp h, feedLoop_eq (b := b ++ input) (by simp)]
  simp

/-- A FEED or FEED_BYTE has a next state only where the configuration is well formed and the Reader exists. -/
theorem reader_of_stepWith_post_next {s' : StateOf p} (ht : FeedsAs p F t input bound)
    (h : stepWith p (s.post t) = .next s') : p.wellFormed F = true ∧ ∃ b, s.buf F = some b := by
  obtain ⟨hp, hnext⟩ := request_next (stepWith_post p s t ▸ h)
  obtain ⟨b, -, -, hb, -⟩ := feedCore_next (ht.perform s ▸ hnext)
  exact ⟨ht.family ▸ hp, b, hb⟩

end

/-- A FEED of a batch, and a FEED_BYTE of its one byte. -/
theorem FeedsAs.feed {p : Params} (F : Family) (input : Bytes) :
    FeedsAs p F (.feed F input) input (p.sizes F).outqCap := .inl ⟨rfl, rfl⟩

theorem FeedsAs.feedByte {p : Params} (F : Family) (x : Byte) : FeedsAs p F (.feedByte F x) [x] 1 :=
  .inr ⟨x, rfl, rfl, rfl⟩

theorem exists_feedsAs {p : Params} {F : Family} {t : TxnOf p} (h : IsFeedTo F t) :
    ∃ input bound, FeedsAs p F t input bound := by
  rcases h with ⟨input, rfl⟩ | ⟨x, rfl⟩
  · exact ⟨input, _, .feed F input⟩
  · exact ⟨[x], 1, .feedByte F x⟩

/-- A bound is at least 1 in a well-formed configuration (R8), and at most `OUTQ_CAP`. -/
theorem FeedsAs.bound_pos {p : Params} {F : Family} {t : TxnOf p} {input : Bytes} {bound : Nat}
    (h : FeedsAs p F t input bound) (hp : p.wellFormed F = true) : 1 ≤ bound ∧ bound ≤ (p.sizes F).outqCap := by
  obtain ⟨-, houtq, -⟩ := Params.wellFormed_iff.1 hp
  rcases h with ⟨-, rfl⟩ | ⟨x, -, -, rfl⟩
  · exact ⟨houtq, le_rfl⟩
  · exact ⟨le_rfl, houtq⟩

end Machine

/-- Settles O38: `stepWith_post_fits`, with the answer in each of the three ways a parse ends. -/
theorem feedIsTheBoundedParse : Obligations.FeedIsTheBoundedParse := by
  intro p s F b input t bound ms rest hb hp hfits ht hparse
  have hstep := stepWith_post_fits ht hb hp hfits
  have hends := parseUpTo_ends p.codec F bound (b ++ input)
  have hle := parseUpTo_length p.codec F bound (b ++ input)
  rw [hparse] at hstep hends hle
  refine ⟨hle, fun hfull => by rw [hstep, feedAnswer_full hfull], fun hlt => ?_⟩
  rcases hends with heq | ⟨-, hinc | ⟨r, hmal⟩⟩
  · exact absurd heq (Nat.ne_of_lt hlt)
  · exact .inl ⟨hinc, by rw [hstep, feedAnswer_incomplete hinc]⟩
  · exact .inr ⟨r, hmal, by rw [hstep, feedAnswer_malformed hlt hmal]⟩

/-! What an answer says. -/

/-- A fault of a FEED_CORE that fits is MALFORMED, with the reason of the front it leaves, and fewer messages than the
bound were lost. -/
theorem feedAnswer_eq_fault {cfg : Codec} {F : Family} {k : Nat} {S : Bytes} {info : FaultInfo}
    (h : feedAnswer cfg F k (parseUpTo cfg F k S).1 (parseUpTo cfg F k S).2 = .fault info) :
    (parseUpTo cfg F k S).1.length < k ∧ ∃ r, decode cfg F (parseUpTo cfg F k S).2 = .malformed r ∧
      info = { kind := .malformed, reason := some r, discarded := (parseUpTo cfg F k S).1.length } := by
  rcases parseUpTo_ends cfg F k S with hfull | ⟨hlt, hinc | ⟨r, hmal⟩⟩
  · rw [feedAnswer_full hfull] at h
    cases h
  · rw [feedAnswer_incomplete hinc] at h
    cases h
  · rw [feedAnswer_malformed hlt hmal] at h
    cases h
    exact ⟨hlt, r, hmal, rfl⟩

/-- Messages that are answered are the parsed ones. -/
theorem feedAnswer_eq_messages {cfg : Codec} {F : Family} {k : Nat} {ms out : List (Instr cfg.debugMaxLen)}
    {rest : Bytes} (h : feedAnswer cfg F k ms rest = .messages out) : out = ms := by
  unfold feedAnswer at h
  (repeat' split at h) <;> cases h <;> rfl

/-- Settles O36: `stepWith_post_full`, and a fault of a batch that fits is MALFORMED. -/
theorem bufferFullIsCheckedFirst : Obligations.BufferFullIsCheckedFirst := by
  intro p s F b input hb hp
  refine ⟨fun hfull => ⟨stepWith_post_full (.feed F input) hb hp hfull, ?_⟩, fun hfits t s' info ht h hinfo => ?_⟩
  · rintro x rfl
    exact stepWith_post_full (.feedByte F x) hb hp hfull
  · obtain ⟨bound, hfeeds⟩ : ∃ bound, FeedsAs p F t input bound := by
      rcases ht with rfl | ⟨x, rfl, rfl⟩
      · exact ⟨_, .feed F input⟩
      · exact ⟨_, .feedByte F x⟩
    rw [stepWith_post_fits hfeeds hb hp hfits] at h
    cases h
    obtain ⟨-, r, -, rfl⟩ := feedAnswer_eq_fault (Option.some.inj hinfo)
    rfl

/-- Settles O47: only a feed answers a fault; of one that fits, `feedAnswer_eq_fault` says what it is. -/
theorem faultsComeOnlyFromFeeds : Obligations.FaultsComeOnlyFromFeeds := by
  intro p s s' t info h hinfo
  rcases perform_next (request_next (stepWith_post p s t ▸ h)).2 with ⟨F, -, rfl⟩ | ⟨F, b, -, -, rfl⟩ |
    ⟨F, input, bound, ht, -⟩ | ⟨F, n, b, -, -, rfl⟩ | ⟨F, slice, -, rfl⟩ | ⟨m, -, -, rfl⟩
  · cases hinfo
  · cases hinfo
  · obtain ⟨hp, b, hb⟩ := reader_of_stepWith_post_next ht h
    refine ⟨F, b, input, ht.imp And.left fun ⟨x, hx, hbyte, _⟩ => ⟨x, hx, hbyte⟩, hb, ?_⟩
    rcases Nat.lt_or_ge (p.sizes F).cap (b.length + input.length) with hfull | hfits
    · rw [stepWith_post_full ht hb hp hfull] at h
      cases h
      exact .inl ⟨(Response.fault.inj (Option.some.inj hinfo)).symm, hfull, by rw [State.respond_buf, hb]⟩
    · rw [stepWith_post_fits ht hb hp hfits] at h
      cases h
      obtain ⟨-, r, hmal, rfl⟩ := feedAnswer_eq_fault (Option.some.inj hinfo)
      exact .inr ⟨rfl, r, _, rfl, by rw [State.respond_buf, State.setBuf_buf_self], hmal⟩
  · cases hinfo
  · cases hinfo
  · cases hinfo

/-- Settles O41: a batch that does not fit is answered BUFFER_FULL; else the parse ends in one of three ways, and what
waits is shorter than the largest frame. -/
theorem responsesTellTheBuffer : Obligations.ResponsesTellTheBuffer := by
  intro p s s' F t bound hp ht h
  obtain ⟨input, hfeeds⟩ : ∃ input, FeedsAs p F t input bound := by
    rcases ht with ⟨input, hfeed⟩ | ⟨x, hbyte, hbound⟩
    · exact ⟨input, .inl hfeed⟩
    · exact ⟨[x], .inr ⟨x, rfl, hbyte, hbound⟩⟩
  obtain ⟨-, b, hb⟩ := reader_of_stepWith_post_next hfeeds h
  rcases Nat.lt_or_ge (p.sizes F).cap (b.length + input.length) with hfull | hfits
  · rw [stepWith_post_full hfeeds hb hp hfull] at h
    cases h
    exact ⟨b, by rw [State.respond_buf, hb], .inr (.inr ⟨rfl, hb⟩)⟩
  · rw [stepWith_post_fits hfeeds hb hp hfits] at h
    cases h
    refine ⟨_, by rw [State.respond_buf, State.setBuf_buf_self], ?_⟩
    rw [State.respond_resp]
    rcases parseUpTo_ends p.codec F bound (b ++ input) with heq | ⟨hlt, hinc | ⟨r, hmal⟩⟩
    · exact .inl ⟨_, by rw [feedAnswer_full heq], heq.le, fun hlt => absurd heq (Nat.ne_of_lt hlt)⟩
    · exact .inl ⟨_, by rw [feedAnswer_incomplete hinc], hlt.le, fun _ => ⟨hinc, decode_incomplete_length_lt hinc⟩⟩
    · exact .inr (.inl ⟨r, _, by rw [feedAnswer_malformed hlt hmal], hmal, hlt⟩)

/-- Settles O32: the first pass of the loop runs the decoded instruction. -/
theorem stepRunsTheDecodedInstruction : Obligations.StepRunsTheDecodedInstruction := by
  refine ⟨fun p s F b input m n hb hp hfits hd => ?_, fun _ => rfl, fun i s => (exec_eq_execAt i s).symm⟩
  have hbuf : ((s.setBuf F (b ++ input)).clearOut).buf F = some (b ++ input) := by simp
  have hexec := execAt_decoded hbuf hd
  have hrun : ∀ {t bound}, FeedsAs p F t input bound → stepWith p (s.post t) =
      andThen (execAt m (s.setBuf F (b ++ input)).clearOut) (feedLoop p.codec F (bound - 1)) := fun ht => by
    obtain ⟨k, rfl⟩ := Nat.exists_eq_add_of_le' (ht.bound_pos hp).1
    rw [stepWith_post_feedLoop ht hb hp hfits, feedLoop_decoded k hbuf hd, hexec, andThen_of_next, Nat.add_sub_cancel]
  refine ⟨hrun (.feed F input), ?_, by simpa using hexec⟩
  rintro x rfl
  exact hrun (.feedByte F x)

/-! A drained buffer (R193, R195, R196). -/

/-- A byte that completes a frame behind a buffer that waits is that frame's last. -/
theorem decode_concat_decoded_of_incomplete {cfg : Codec} {F : Family} {b : Bytes} {x : Byte}
    {m : Instr cfg.debugMaxLen} {n : Nat} (hinc : decode cfg F b = .incomplete)
    (h : decode cfg F (b ++ [x]) = .decoded m n) : n = (b ++ [x]).length := by
  refine (decode_decoded_le_length h).antisymm ?_
  by_contra hlt
  have hn : n ≤ b.length := by
    simp only [List.length_append, List.length_singleton] at hlt
    omega
  have hb := decode_take_append h (b.drop n)
  rw [List.take_append_of_le_length hn, List.take_append_drop, hinc] at hb
  cases hb

/-- The parse of a slice that is one frame. -/
theorem parseUpTo_frame {cfg : Codec} {F : Family} {S : Bytes} {m : Instr cfg.debugMaxLen} (k : Nat)
    (h : decode cfg F S = .decoded m S.length) : parseUpTo cfg F (k + 1) S = ([m], []) := by
  rw [parseUpTo_decoded k h, List.drop_length, parseUpTo_incomplete k (decode_nil cfg F)]

/-- Behind a buffer that waits, one more byte gives the same parse under every bound: at most one message, after
which nothing is left. -/
theorem parseUpTo_concat_of_incomplete {cfg : Codec} {F : Family} {b : Bytes} {x : Byte}
    (hinc : decode cfg F b = .incomplete) : (∃ m, ∀ k, parseUpTo cfg F (k + 1) (b ++ [x]) = ([m], [])) ∨
      ∀ k, parseUpTo cfg F (k + 1) (b ++ [x]) = ([], b ++ [x]) := by
  cases hd : decode cfg F (b ++ [x]) with
  | incomplete => exact .inr fun k => parseUpTo_incomplete _ hd
  | malformed r => exact .inr fun k => parseUpTo_malformed _ hd
  | decoded m n =>
    cases decode_concat_decoded_of_incomplete hinc hd
    exact .inl ⟨m, fun k => parseUpTo_frame k hd⟩

/-- Settles O39: both calls do not fit, or both have the same parse of at most one message. -/
theorem feedByteIsABatchOfOne : Obligations.FeedByteIsABatchOfOne := by
  intro p s F b x hb hp hinc
  obtain ⟨k, hk⟩ := Nat.exists_eq_add_of_le' ((FeedsAs.feed F [x]).bound_pos hp).1
  rcases Nat.lt_or_ge (p.sizes F).cap (b.length + [x].length) with hfull | hfits
  · have hfeed := stepWith_post_full (.feed F [x]) hb hp hfull
    refine ⟨(stepWith_post_full (.feedByte F x) hb hp hfull).trans hfeed.symm, fun t ms h hms => ?_⟩
    rw [hfeed] at h
    cases h
    cases hms
  · have hfeed := stepWith_post_fits (.feed F [x]) hb hp hfits
    have hbyte := stepWith_post_fits (.feedByte F x) hb hp hfits
    rw [hk] at hfeed
    rw [hfeed, hbyte]
    rcases parseUpTo_concat_of_incomplete (x := x) hinc with ⟨m, hparse⟩ | hparse
    · rw [hparse k, hparse 0, feedAnswer_incomplete (decode_nil ..), feedAnswer_incomplete (decode_nil ..)]
      refine ⟨rfl, fun t ms h hms => ?_⟩
      cases h
      cases hms
      exact ⟨le_rfl, fun _ => by rw [State.respond_buf, State.setBuf_buf_self]⟩
    · rw [hparse k, hparse 0]
      refine ⟨by simp [feedAnswer], fun t ms h hms => ?_⟩
      cases h
      obtain rfl := feedAnswer_eq_messages (Option.some.inj hms)
      exact ⟨Nat.zero_le _, fun h => absurd rfl h⟩

/-- All but the last byte of a frame waits: any other answer would stand. -/
theorem decode_incomplete_of_concat_decoded {cfg : Codec} {F : Family} {front : Bytes} {x : Byte}
    {m : Instr cfg.debugMaxLen} (h : decode cfg F (front ++ [x]) = .decoded m (front.length + 1)) :
    decode cfg F front = .incomplete := by
  cases hd : decode cfg F front with
  | incomplete => rfl
  | malformed r =>
    rw [decode_append_malformed hd] at h
    cases h
  | decoded m' n =>
    rw [decode_append_decoded hd] at h
    cases h
    exact absurd (decode_decoded_le_length hd) (Nat.not_succ_le_self _)

/-- A FEED after which the buffer waits, and one that completes a frame. -/
theorem Machine.stepWith_post_feed_incomplete {p : Params} {s : StateOf p} {F : Family} {b input : Bytes}
    (hb : s.buf F = some b) (hp : p.wellFormed F = true) (h : decode p.codec F (b ++ input) = .incomplete) :
    stepWith p (s.post (.feed F input)) = .next ((s.setBuf F (b ++ input)).respond (.messages [])) := by
  have hshort := decode_incomplete_length_lt h
  obtain ⟨hcap, -, -⟩ := Params.wellFormed_iff.1 hp
  rw [List.length_append] at hshort
  rw [stepWith_post_fits (.feed F input) hb hp (by omega), parseUpTo_incomplete _ h, feedAnswer_incomplete h]

theorem Machine.stepWith_post_feed_frame {p : Params} {s : StateOf p} {F : Family} {b input : Bytes} {m : InstrOf p}
    (hb : s.buf F = some b) (hp : p.wellFormed F = true)
    (h : decode p.codec F (b ++ input) = .decoded m (b ++ input).length) :
    stepWith p (s.post (.feed F input)) = .next ((s.setBuf F []).respond (.messages [m])) := by
  have hsize := decode_decoded_le_maxWire h
  obtain ⟨hcap, hbound, -⟩ := Params.wellFormed_iff.1 hp
  obtain ⟨k, hk⟩ := Nat.exists_eq_add_of_le' hbound
  rw [List.length_append] at hsize
  rw [stepWith_post_fits (.feed F input) hb hp (by omega), hk, parseUpTo_frame k h,
    feedAnswer_incomplete (decode_nil ..)]

/-- Settles O43: the front waits, and with the last byte behind it the buffer is the frame. -/
theorem lastByteCompletesTheFrame : Obligations.LastByteCompletesTheFrame := by
  intro p s F front x m hb hp _ h
  have hframe : decode p.codec F (front ++ [x]) = .decoded m (front ++ [x]).length := by rw [h]; simp
  have hfront := decode_incomplete_of_concat_decoded h
  exact ⟨_, stepWith_post_feed_incomplete hb hp hfront, rfl,
    _, stepWith_post_feed_frame (b := front) (by simp) hp hframe, rfl, by simp⟩

/-- A feed whose batch makes the buffer Malformed at its front: nothing is parsed. -/
theorem Machine.stepWith_post_malformed {p : Params} {s : StateOf p} {F : Family} {t : TxnOf p} {b input : Bytes}
    {bound : Nat} {r : Reason} (ht : FeedsAs p F t input bound) (hb : s.buf F = some b) (hp : p.wellFormed F = true)
    (hfits : b.length + input.length ≤ (p.sizes F).cap) (h : decode p.codec F (b ++ input) = .malformed r) :
    stepWith p (s.post t) = .next ((s.setBuf F (b ++ input)).respond
      (.fault { kind := .malformed, reason := some r, discarded := 0 })) := by
  rw [stepWith_post_fits ht hb hp hfits, parseUpTo_malformed _ h,
    feedAnswer_malformed (ht.bound_pos hp).1 h, List.length_nil]

/-- Settles O44: the one byte is Malformed, and fits any legal `CAP`. -/
theorem badTagFaultsAtOnce : Obligations.BadTagFaultsAtOnce := by
  intro p s F b hb hp hl
  obtain ⟨hcap, -, -⟩ := Params.wellFormed_iff.1 hp
  exact stepWith_post_malformed (.feed F [b]) hb hp ((three_le_maxWire ..).trans hcap |>.trans' (by simp))
    (decode_cons_none [] hl)

/-! Behind a Malformed front (R198). -/

/-- A feed to a Reader with a Malformed front keeps it and faults. -/
theorem Machine.stepWith_post_stalled {p : Params} {s : StateOf p} {F : Family} {t : TxnOf p} {b input : Bytes}
    {bound : Nat} {r : Reason} (ht : FeedsAs p F t input bound) (hb : s.buf F = some b) (hp : p.wellFormed F = true)
    (h : decode p.codec F b = .malformed r) :
    stepWith p (s.post t) = .next (if b.length + input.length ≤ (p.sizes F).cap then
        (s.setBuf F (b ++ input)).respond (.fault { kind := .malformed, reason := some r, discarded := 0 })
      else s.respond (.fault { kind := .bufferFull, reason := none, discarded := 0 })) := by
  split
  · exact stepWith_post_malformed ht hb hp ‹_› (decode_append_malformed h input)
  · exact stepWith_post_full ht hb hp (Nat.lt_of_not_le ‹_›)

/-- A run goes on from the next state of its first transaction. -/
theorem runTxns_cons {p : Params} {t : TxnOf p} {ts : List (TxnOf p)} {s u : StateOf p}
    (h : stepWith p (s.post t) = .next u) : runTxns p (t :: ts) s = runTxns p ts u := by
  rw [runTxns, h]

/-- The Reader of `F` has the front `b`, on which DECODE answers `Malformed(r)`. -/
def HasMalformedFront (p : Params) (F : Family) (b : Bytes) (r : Reason) (s : StateOf p) : Prop :=
  ∃ b', s.buf F = some b' ∧ decode p.codec F b' = .malformed r ∧ b <+: b'

/-- The last response is one of the two faults of a stalled Reader. -/
def AnsweredStalled {p : Params} (r : Reason) (s : StateOf p) : Prop :=
  s.resp = some (.fault { kind := .malformed, reason := some r, discarded := 0 }) ∨
    s.resp = some (.fault { kind := .bufferFull, reason := none, discarded := 0 })

theorem HasMalformedFront.step {p : Params} {F : Family} {b : Bytes} {r : Reason} {s : StateOf p} {t : TxnOf p}
    (hs : HasMalformedFront p F b r s) (hp : p.wellFormed F = true) (ht : IsFeedTo F t) :
    ∃ u, stepWith p (s.post t) = .next u ∧ HasMalformedFront p F b r u ∧ AnsweredStalled r u := by
  obtain ⟨b', hb', hmal, hprefix⟩ := hs
  obtain ⟨input, bound, hfeeds⟩ := exists_feedsAs ht
  refine ⟨_, stepWith_post_stalled hfeeds hb' hp hmal, ?_⟩
  split
  · exact ⟨⟨b' ++ input, by simp, decode_append_malformed hmal input, hprefix.trans (List.prefix_append ..)⟩, .inl rfl⟩
  · exact ⟨⟨b', by simpa using hb', hmal, hprefix⟩, .inr rfl⟩

theorem HasMalformedFront.run {p : Params} {F : Family} {b : Bytes} {r : Reason} (hp : p.wellFormed F = true)
    (ts : List (TxnOf p)) (hts : ∀ t ∈ ts, IsFeedTo F t) {s : StateOf p} (hs : HasMalformedFront p F b r s) :
    ∃ u, runTxns p ts s = some u ∧ HasMalformedFront p F b r u ∧
      (AnsweredStalled r s ∨ ts ≠ [] → AnsweredStalled r u) := by
  induction ts generalizing s with
  | nil => exact ⟨s, rfl, hs, fun h => h.resolve_right (absurd rfl)⟩
  | cons t ts ih =>
    obtain ⟨ht, hts⟩ := List.forall_mem_cons.1 hts
    obtain ⟨u, hstep, hu, hanswer⟩ := hs.step hp ht
    obtain ⟨v, hrun, hv, hlast⟩ := ih hts hu
    exact ⟨v, (runTxns_cons hstep).trans hrun, hv, fun _ => hlast (.inl hanswer)⟩

/-- Settles O46: one feed by `stepWith_post_stalled`, any number by `HasMalformedFront.run`. -/
theorem malformedFrontStalls : Obligations.MalformedFrontStalls := by
  intro p s F b r hb hp hmal
  refine ⟨fun input => stepWith_post_stalled (.feed F input) hb hp hmal, fun ts hts => ?_⟩
  obtain ⟨u, hrun, ⟨b', hb', hmal', hprefix⟩, hlast⟩ :=
    HasMalformedFront.run hp ts hts ⟨b, hb, hmal, List.prefix_refl b⟩
  exact ⟨u, b', hrun, hb', hmal', hprefix, fun hne => hlast (.inr hne)⟩

/-! Byte by byte (R197). -/

/-- A FEED_BYTE to a Reader with no whole frame at its front leaves one. -/
theorem Settled.feedByte {p : Params} {F : Family} {s u : StateOf p} {b : Bytes} {x : Byte}
    (hp : p.wellFormed F = true) (hb : s.buf F = some b) (hsettled : Settled p.codec F b)
    (h : stepWith p (s.post (.feedByte F x)) = .next u) : ∃ b', u.buf F = some b' ∧ Settled p.codec F b' := by
  rcases Nat.lt_or_ge (p.sizes F).cap (b.length + [x].length) with hfull | hfits
  · rw [stepWith_post_full (.feedByte F x) hb hp hfull] at h
    cases h
    exact ⟨b, by rw [State.respond_buf, hb], hsettled⟩
  · rw [stepWith_post_fits (.feedByte F x) hb hp hfits] at h
    cases h
    refine ⟨_, by rw [State.respond_buf, State.setBuf_buf_self], ?_⟩
    rcases hsettled with hinc | ⟨r, hmal⟩
    · rcases parseUpTo_concat_of_incomplete (x := x) hinc with ⟨m, hparse⟩ | hparse
      · exact .inl (by rw [hparse 0, decode_nil])
      · exact parseUpTo_settled _ _ _ _ (by rw [hparse 0]; exact Nat.one_pos)
    · have hmal' := decode_append_malformed hmal [x]
      exact .inr ⟨r, by rw [parseUpTo_malformed 1 hmal', hmal']⟩

theorem Settled.runTxns_feedByte {p : Params} {F : Family} (hp : p.wellFormed F = true) (xs : Bytes)
    {s s' : StateOf p} {b : Bytes} (hb : s.buf F = some b) (hsettled : Settled p.codec F b)
    (h : runTxns p (xs.map (.feedByte F)) s = some s') : ∃ b', s'.buf F = some b' ∧ Settled p.codec F b' := by
  induction xs generalizing s b with
  | nil =>
    cases h
    exact ⟨b, hb, hsettled⟩
  | cons x xs ih =>
    rw [List.map_cons, runTxns] at h
    split at h
    · next u hstep =>
      obtain ⟨b₁, hb₁, hsettled₁⟩ := hsettled.feedByte hp hb hstep
      exact ih hb₁ hsettled₁ h
    · cases h
    · cases h

/-- Settles O45: every FEED_BYTE keeps the front without a whole frame, and a front that waits is shorter than any
legal `CAP`. -/
theorem bytewiseFeedingFillsOnlyBehindMalformed : Obligations.BytewiseFeedingFillsOnlyBehindMalformed := by
  intro p s s' F xs b' hb hp hrun hb'
  obtain ⟨c, hc, hsettled⟩ := Settled.runTxns_feedByte hp xs hb (.inl (decode_nil ..)) hrun
  cases hb'.symm.trans hc
  refine ⟨hsettled, fun hfull => hsettled.resolve_left fun hinc => ?_⟩
  have hshort := decode_incomplete_length_lt hinc
  obtain ⟨hcap, -, -⟩ := Params.wellFormed_iff.1 hp
  omega

end Sys2Proof

/-! SUPPORT. The instructions (43_reader.md R184) and the host's requests (60_exceptions.md R236): what each changes,
when it is refused, what it reads of the configuration and of the other direction, and that it keeps the invariant. -/

namespace Sys2Proof

open Machine

/-! The instructions. -/

namespace Machine

section

variable {d : Nat} {i : Instr d} {s : State d}

/-- The three answers of an instruction. -/
theorem execAt_of_reader {b : Bytes} (hi : i.wellFormed = true) (hb : s.buf i.family = some b) :
    execAt i s = .next ((s.setBuf i.family (b.drop i.wireSize)).pushOut i) := by
  rw [execAt_eq_deliver, deliver_of_reader hi hb, drain]

theorem execAt_noReader (hi : i.wellFormed = true) (hb : s.buf i.family = none) :
    execAt i s = .refused .noReader := by
  simp [execAt_eq_deliver, deliver, hi, hb]

theorem execAt_notConstructible (hi : i.wellFormed = false) : execAt i s = .refused .notConstructible := by
  simp [execAt_eq_deliver, deliver, hi]

/-- exec runs where the Reader of its family exists. -/
theorem exec_of_reader {i : Instr} {s : State} {b : Bytes} (hi : i.wellFormed = true) (hb : s.buf i.family = some b) :
    exec i s = .next ((s.setBuf i.family (b.drop i.wireSize)).pushOut i) :=
  (exec_eq_execAt i s).trans (execAt_of_reader hi hb)

end

end Machine

/-- Settles O30: an instruction is a delivery, which gives one Reader the rest behind the frame. -/
theorem instructionsChangeOnlyTheirReader : Obligations.InstructionsChangeOnlyTheirReader := by
  refine ⟨fun n i s t h => ?_, exec_eq_execAt⟩
  rw [execAt_eq_deliver] at h
  obtain ⟨-, b, hb, rfl⟩ := deliver_next h
  refine ⟨by simp, by simp, by simp, fun F hF => ?_, b, hb, by simp [drain]⟩
  rw [State.pushOut_buf, State.setBuf_buf_other s _ hF]

/-- Only a dial difference can fail to be a message value (R9). -/
theorem Instr.wellFormed_eq_false_iff {n : Nat} {i : Instr n} : i.wellFormed = false ↔
    ∃ diff, i = .dialValue diff ∧ (diff < -128 ∨ 127 < diff) := by
  cases i with
  | dialValue diff =>
    rw [Instr.wellFormed, ← Bool.not_eq_true, isI8_iff]
    simp only [Instr.dialValue.injEq, exists_eq_left']
    omega
  | _ => simp [Instr.wellFormed]

/-- Settles O31: the three answers of `exec`, one for each of the cases that the statement tells apart. -/
theorem instructionsRunExactlyWhen : Obligations.InstructionsRunExactlyWhen := by
  refine ⟨fun i s => ?_, fun n i => Instr.wellFormed_eq_false_iff, fun cfg i => wellFormed_of_constructible⟩
  rw [exec_eq_execAt]
  cases hi : i.wellFormed with
  | false => simp [execAt_notConstructible hi]
  | true =>
    cases hb : s.buf i.family with
    | none => simp [execAt_noReader hi hb]
    | some b => simp [execAt_of_reader hi hb]

/-- Settles O27: each Command message is a message value whatever its operands, so it runs where the Reader is. -/
theorem commandFramesRun : Obligations.CommandFramesRun := fun _ _ hb =>
  ⟨fun _ _ => exec_of_reader rfl hb, fun _ _ => exec_of_reader rfl hb, fun _ _ => exec_of_reader rfl hb,
    fun _ _ _ _ => exec_of_reader rfl hb, exec_of_reader rfl hb⟩

/-- Settles O28: as for the Command frames; a DialValue is a message value where its difference is an `i8`. -/
theorem fixedReportFramesRun : Obligations.FixedReportFramesRun := by
  intro s buf hb
  refine ⟨?_, fun _ => exec_of_reader rfl hb, fun diff hlo hhi => exec_of_reader (isI8_iff.2 ⟨hlo, hhi⟩) hb⟩
  simp only [List.forall_mem_cons]
  exact ⟨exec_of_reader rfl hb, exec_of_reader rfl hb, exec_of_reader rfl hb, exec_of_reader rfl hb, nofun⟩

/-- Settles O29: every `DebugStr` is a message value, in every build. -/
theorem debugFramesRun : Obligations.DebugFramesRun :=
  ⟨fun _ _ _ _ hb => execAt_of_reader rfl hb, fun _ _ _ hb => exec_of_reader rfl hb⟩

/-- Settles O26: each frame by the lemma on its format, the table word by evaluation. -/
theorem framesOfTheNotationDecode : Obligations.FramesOfTheNotationDecode := by
  refine ⟨decode_powerCycler _ 3 1 [], decode_brightness _ 1 0x12 0x34 [], decode_temperature _ 0 0x01 0x2C [],
    decode_led _ 255 0 16 1 [], decode_dialValue _ 0xFB [], decode_error _ 0x01 0x02 [], ?_, ?_⟩
  · decide
  · decide +kernel

/-! The requests: their answers and refusals. -/

namespace Machine

/-- The requests that are made to a Reader that exists (R252). -/
def NeedsReader {d : Nat} (t : Txn d) : Prop :=
  t = .reset t.family ∨ IsFeedTo t.family t ∨ ∃ n, t = .discard t.family n

section

variable {p : Params} {s : StateOf p}

theorem perform_noReader {t : TxnOf p} (ht : NeedsReader t) (hb : s.buf t.family = none) :
    perform p t s = .refused .noReader := by
  cases t with
  | reset F => simp [perform, resetReader, show s.buf F = none from hb]
  | feed F input => simp [perform, feed, feedCore, show s.buf F = none from hb]
  | feedByte F x => simp [perform, feedByte, feedCore, show s.buf F = none from hb]
  | discard F n => simp [perform, discardFront, show s.buf F = none from hb]
  | _ => simp [NeedsReader, IsFeedTo] at ht

theorem perform_reset {F : Family} {b : Bytes} (hb : s.buf F = some b) :
    perform p (.reset F) s = .next ((s.setBuf F []).respond .ok) := by
  simp [perform, resetReader, hb]

theorem perform_discard {F : Family} {b : Bytes} (n : Nat) (hb : s.buf F = some b) : perform p (.discard F n) s =
    .next ((s.setBuf F (b.drop (min n b.length))).respond (.dropped (min n b.length))) := by
  simp [perform, discardFront, hb, drain]

theorem perform_encode {m : InstrOf p} (hm : m.constructible p.codec = true) :
    perform p (.encode m) s = .next (s.respond (.frame (encode p.codec m))) := if_pos hm

theorem perform_encode_refused {m : InstrOf p} (hm : m.constructible p.codec = false) :
    perform p (.encode m) s = .refused .notConstructible := if_neg (by simp [hm])

theorem feedCore_answers {F : Family} {b : Bytes} (input : Bytes) (bound : Nat) (hb : s.buf F = some b) :
    ∃ u, feedCore p F input bound s = .next u := by
  rcases Nat.lt_or_ge (p.sizes F).cap (b.length + input.length) with hfull | hfits
  · exact ⟨_, feedCore_full bound hb hfull⟩
  · exact ⟨_, (feedCore_fits bound hb hfits).trans (feedLoop_eq (b := b ++ input) (by simp))⟩

/-- A request is answered where the Reader it needs exists and the value it encodes can be constructed. -/
theorem perform_answers {t : TxnOf p} (hreader : NeedsReader t → ∃ b, s.buf t.family = some b)
    (hvalue : ∀ m, t = .encode m → m.constructible p.codec = true) : ∃ u, perform p t s = .next u := by
  cases t with
  | new F => exact ⟨_, rfl⟩
  | reset F =>
    obtain ⟨b, hb⟩ := hreader (.inl rfl)
    exact ⟨_, perform_reset hb⟩
  | feed F input =>
    obtain ⟨b, hb⟩ := hreader (.inr (.inl (.inl ⟨input, rfl⟩)))
    exact feedCore_answers input _ hb
  | feedByte F x =>
    obtain ⟨b, hb⟩ := hreader (.inr (.inl (.inr ⟨x, rfl⟩)))
    exact feedCore_answers [x] 1 hb
  | discard F n =>
    obtain ⟨b, hb⟩ := hreader (.inr (.inr ⟨n, rfl⟩))
    exact ⟨_, perform_discard n hb⟩
  | decode F slice => exact ⟨_, rfl⟩
  | encode m => exact ⟨_, perform_encode (hvalue m rfl)⟩

theorem request_illFormed {t : TxnOf p} (h : p.wellFormed t.family = false) :
    request p t s = .refused .illFormedConfig := by
  simp [request, h]

/-- A request is refused in one of three cases that exclude each other, and answered otherwise. -/
theorem request_cases (p : Params) (t : TxnOf p) (s : StateOf p) :
    (p.wellFormed t.family = false ∧ request p t s = .refused .illFormedConfig) ∨
    (p.wellFormed t.family = true ∧ NeedsReader t ∧ s.buf t.family = none ∧ request p t s = .refused .noReader) ∨
    (p.wellFormed t.family = true ∧ (∃ m, t = .encode m ∧ m.constructible p.codec = false) ∧
      request p t s = .refused .notConstructible) ∨
    (p.wellFormed t.family = true ∧ (NeedsReader t → ∃ b, s.buf t.family = some b) ∧
      (∀ m, t = .encode m → m.constructible p.codec = true) ∧ ∃ u, request p t s = .next u) := by
  cases hp : p.wellFormed t.family with
  | false => exact .inl ⟨rfl, request_illFormed hp⟩
  | true =>
    refine .inr ?_
    rw [request_of_wellFormed hp]
    by_cases hreader : NeedsReader t → ∃ b, s.buf t.family = some b
    · by_cases hvalue : ∀ m, t = .encode m → m.constructible p.codec = true
      · exact .inr (.inr ⟨rfl, hreader, hvalue, perform_answers hreader hvalue⟩)
      · push Not at hvalue
        obtain ⟨m, rfl, hm⟩ := hvalue
        have hm : m.constructible p.codec = false := Bool.eq_false_iff.2 hm
        exact .inr (.inl ⟨rfl, ⟨m, rfl, hm⟩, perform_encode_refused hm⟩)
    · push Not at hreader
      obtain ⟨hneeds, hnone⟩ := hreader
      have hnone : s.buf t.family = none := Option.eq_none_iff_forall_ne_some.2 hnone
      exact .inl ⟨rfl, hneeds, hnone, perform_noReader hneeds hnone⟩

end

end Machine

theorem Machine.NeedsReader.ne_encode {d : Nat} {t : Txn d} (ht : NeedsReader t) (m : Instr d) : t ≠ .encode m := by
  rintro rfl
  simp [NeedsReader, IsFeedTo] at ht

/-- Settles O55: the four cases of `request_cases`, each of which decides every clause. -/
theorem requestsAreAnsweredButForThreeRefusals : Obligations.RequestsAreAnsweredButForThreeRefusals := by
  intro p s t
  rw [stepWith_post, ← NeedsReader]
  rcases request_cases p t s with ⟨hp, h⟩ | ⟨hp, hneeds, hnone, h⟩ | ⟨hp, ⟨m, rfl, hm⟩, h⟩ | ⟨hp, hreader, hvalue, u, h⟩
  · simp [h, hp]
  · simp [h, hp, hnone, hneeds, hneeds.ne_encode]
  · have hneeds : ¬NeedsReader (.encode m) := fun ht => ht.ne_encode m rfl
    simp [h, hp, hm, hneeds]
  · have hvalue : ¬∃ m, t = .encode m ∧ m.constructible p.codec = false := by
      rintro ⟨m, rfl, hm⟩
      exact Bool.false_ne_true (hm.symm.trans (hvalue m rfl))
    have hreader : ¬(s.buf t.family = none ∧ NeedsReader t) := fun ⟨hnone, hneeds⟩ => by
      obtain ⟨b, hb⟩ := hreader hneeds
      cases hnone.symm.trans hb
    simp [h, hp, hvalue, hreader]

/-- Settles O25: the two answers of ENCODE. -/
theorem encodeTransactionAnswersTheFrame : Obligations.EncodeTransactionAnswersTheFrame := by
  intro p s m hp
  rw [stepWith_post, request_of_wellFormed hp]
  exact ⟨perform_encode, perform_encode_refused⟩

/-- A transaction that gives the Reader of `F` an empty buffer and answers, and what it leaves as it was. -/
theorem Machine.State.clear_respond {d : Nat} (s : State d) (F : Family) (r : Response d) :
    ((s.setBuf F []).respond r).buf F = some [] ∧ ((s.setBuf F []).respond r).resp = some r ∧
    ((s.setBuf F []).respond r).outq = [] ∧ ((s.setBuf F []).respond r).pending = s.pending ∧
    ∀ G, G ≠ F → ((s.setBuf F []).respond r).buf G = s.buf G :=
  ⟨by simp, rfl, rfl, by simp, fun G hG => by rw [State.respond_buf, State.setBuf_buf_other s _ hG]⟩

/-- Settles O33: NEW gives the Reader an empty buffer and answers, or is refused. -/
theorem newCreatesAnEmptyReader : Obligations.NewCreatesAnEmptyReader := by
  intro p s F
  rw [stepWith_post]
  exact ⟨fun hp => ⟨_, request_of_wellFormed hp, State.clear_respond s F .created⟩, request_illFormed (t := .new F)⟩

/-- Settles O34: RESET gives the Reader an empty buffer and answers. -/
theorem resetClearsTheBufferOnly : Obligations.ResetClearsTheBufferOnly := by
  intro p s F b hb hp
  rw [stepWith_post]
  exact ⟨_, (request_of_wellFormed hp).trans (perform_reset hb), State.clear_respond s F .ok⟩

/-- DISCARD as a step (R189). -/
theorem Machine.stepWith_post_discard {p : Params} {s : StateOf p} {F : Family} {b : Bytes} (n : Nat)
    (hb : s.buf F = some b) (hp : p.wellFormed F = true) : stepWith p (s.post (.discard F n)) =
      .next ((s.setBuf F (b.drop (min n b.length))).respond (.dropped (min n b.length))) :=
  (request_of_wellFormed hp).trans (perform_discard n hb)

/-- Settles O35: `stepWith_post_discard`. -/
theorem discardDropsAndClamps : Obligations.DiscardDropsAndClamps := fun _ _ _ n _ => stepWith_post_discard n

/-- Settles O48: the codes of each fault by evaluation; every response but a fault has the codes of no fault. -/
theorem statusCodesOfResponses : Obligations.StatusCodesOfResponses := by
  refine ⟨fun n d => ⟨rfl, rfl, rfl, rfl⟩, fun n r => ?_⟩
  cases r with
  | fault info =>
    rcases info with ⟨kind, reason, discarded⟩
    cases kind <;> simp [statusCodes, kindCode]
  | _ => simp [statusCodes, kindCode, reasonCode]

/-- Settles O51: a step with nothing pending is idle. -/
theorem framerIsPassive : Obligations.FramerIsPassive := by
  have hidle : ∀ (p : Params) (s : StateOf p), s.pending = [] → stepWith p s = .next s := fun p s h => by
    rw [stepWith, h]
  exact ⟨hidle, hidle built⟩

/-- Settles O59: the clauses of R8, the last one on the tag that there is. -/
theorem wellFormedConfigurations : Obligations.WellFormedConfigurations := by
  intro p F
  have htag : bootloadTagOk p.codec = true ↔
      ∀ t, p.codec.bootloadTag = some t → t ∉ [(0x41 : Byte), 0x42, 0x43, 0x44] := by
    cases htag : p.codec.bootloadTag <;> simp [bootloadTagOk, htag, and_assoc]
  rw [Params.wellFormed_iff, Codec.wellFormed_iff, htag, and_left_comm (a := 1 ≤ _)]
  cases F <;> rfl

end Sys2Proof

/-! SUPPORT. The whole machine: what a request reads of the configuration (10_state.md R20) and of the other direction
(60_exceptions.md R235), the invariant that every step keeps (10_state.md R22, R33, R34), and the output side of the
transport (60_exceptions.md R238, R260). -/

namespace Sys2Proof

open Machine

/-! What a request reads of the configuration (R20). -/

/-- The same configuration with other sizes. -/
abbrev Params.withSizes (p : Params) (cmd rep : Sizes) : Params := { p with cmd := cmd, rep := rep }

section

variable {p : Params} {cmd rep : Sizes}

theorem Params.wellFormed_withSizes {F : Family} (h : (p.withSizes cmd rep).sizes F = p.sizes F) :
    (p.withSizes cmd rep).wellFormed F = p.wellFormed F := by
  simp only [Params.wellFormed, capOk, h]

/-- A request reads the sizes of its own direction only. -/
theorem Machine.perform_withSizes {t : TxnOf p} (s : StateOf p)
    (h : (p.withSizes cmd rep).sizes t.family = p.sizes t.family) :
    perform (p.withSizes cmd rep) t s = perform p t s := by
  cases t with
  | feed F input => simp only [perform, feed, feedCore, show (p.withSizes cmd rep).sizes F = p.sizes F from h]
  | feedByte F x => simp only [perform, feedByte, feedCore, show (p.withSizes cmd rep).sizes F = p.sizes F from h]
  | _ => rfl

theorem Machine.stepWith_withSizes {t : TxnOf p} (s : StateOf p)
    (h : (p.withSizes cmd rep).sizes t.family = p.sizes t.family) :
    stepWith (p.withSizes cmd rep) (s.post t) = stepWith p (s.post t) := by
  rw [stepWith_post, stepWith_post, request, request, Params.wellFormed_withSizes h, perform_withSizes s h]

/-- DECODE and ENCODE read no sizes. -/
theorem Machine.perform_codec_withSizes {t : TxnOf p} (s : StateOf p)
    (ht : (∃ F slice, t = .decode F slice) ∨ ∃ m, t = .encode m) :
    perform (p.withSizes cmd rep) t s = perform p t s := by
  rcases ht with ⟨F, slice, rfl⟩ | ⟨m, rfl⟩ <;> rfl

end

/-- A request leaves the requests behind it as they are. -/
theorem Machine.perform_pending {p : Params} {s s' : StateOf p} {t : TxnOf p} (h : perform p t s = .next s') :
    s'.pending = s.pending := by
  rcases perform_next h with ⟨F, -, rfl⟩ | ⟨F, b, -, -, rfl⟩ | ⟨F, input, bound, -, hc⟩ | ⟨F, n, b, -, -, rfl⟩ |
    ⟨F, slice, -, rfl⟩ | ⟨m, -, -, rfl⟩
  · simp
  · simp
  · obtain ⟨b, b', r, -, rfl, -⟩ := feedCore_next hc
    simp
  · simp
  · rfl
  · rfl

/-- Settles O50: `stepWith_withSizes` and `perform_codec_withSizes`; a step is idle or takes the first request. -/
theorem configurationIsAParameterOfTheStep : Obligations.ConfigurationIsAParameterOfTheStep := by
  refine ⟨fun p cmd rep s t => stepWith_withSizes s, fun p cmd rep s t ht hp hp' => ?_, fun p s t h => ?_, step_eq⟩
  · have hperform := perform_codec_withSizes (cmd := cmd) (rep := rep) s ht
    exact (request_of_wellFormed hp').trans (hperform.trans (request_of_wellFormed hp).symm)
  · rcases stepWith_next h with ⟨hnil, rfl⟩ | ⟨u, rest, hcons, hreq⟩
    · simp [hnil]
    · rw [perform_pending (request_next hreq).2, hcons, List.tail_cons]

/-! What a request reads of the other direction (R235). -/

namespace Machine

variable {p : Params} {s₁ s₂ : StateOf p} {F : Family}

/-- The same response, with the Reader as it is or with the same new content. -/
theorem sameView_respond {d : Nat} {s₁ s₂ : State d} (h : s₁.buf F = s₂.buf F) (r : Response d) :
    sameView F (.next (s₁.respond r)) (.next (s₂.respond r)) :=
  ⟨by rw [State.respond_buf, State.respond_buf, h], rfl⟩

theorem sameView_setBuf_respond {d : Nat} (s₁ s₂ : State d) (b : Bytes) (r : Response d) :
    sameView F (.next ((s₁.setBuf F b).respond r)) (.next ((s₂.setBuf F b).respond r)) :=
  sameView_respond (by simp) r

theorem sameView_feedCore {b : Bytes} (input : Bytes) (bound : Nat) (h₁ : s₁.buf F = some b)
    (h₂ : s₂.buf F = some b) : sameView F (feedCore p F input bound s₁) (feedCore p F input bound s₂) := by
  rcases Nat.lt_or_ge (p.sizes F).cap (b.length + input.length) with hfull | hfits
  · rw [feedCore_full bound h₁ hfull, feedCore_full bound h₂ hfull]
    exact sameView_respond (h₁.trans h₂.symm) _
  · rw [feedCore_fits bound h₁ hfits, feedCore_fits bound h₂ hfits, feedLoop_eq (b := b ++ input) (by simp),
      feedLoop_eq (b := b ++ input) (by simp)]
    simp only [State.setBuf_clearOut, State.setBuf_setBuf, State.respond_clearOut, State.clearOut_outq]
    exact sameView_setBuf_respond ..

/-- A request to a Reader with the same content looks the same. -/
theorem sameView_perform_of_reader {t : TxnOf p} {b : Bytes} (ht : NeedsReader t) (h₁ : s₁.buf t.family = some b)
    (h₂ : s₂.buf t.family = some b) : sameView t.family (perform p t s₁) (perform p t s₂) := by
  cases t with
  | reset F =>
    rw [perform_reset (F := F) h₁, perform_reset (F := F) h₂]
    exact sameView_setBuf_respond ..
  | feed F input => exact sameView_feedCore input _ h₁ h₂
  | feedByte F x => exact sameView_feedCore [x] 1 h₁ h₂
  | discard F n =>
    rw [perform_discard (F := F) n h₁, perform_discard (F := F) n h₂]
    exact sameView_setBuf_respond ..
  | _ => simp [NeedsReader, IsFeedTo] at ht

/-- So does every request, the Reader being there or not. -/
theorem sameView_perform {t : TxnOf p} (h : s₁.buf t.family = s₂.buf t.family) :
    sameView t.family (perform p t s₁) (perform p t s₂) := by
  by_cases ht : NeedsReader t
  · cases hb : s₁.buf t.family with
    | none =>
      rw [perform_noReader ht hb, perform_noReader ht (h ▸ hb)]
      rfl
    | some b => exact sameView_perform_of_reader ht hb (h ▸ hb)
  · cases t with
    | new F => exact sameView_setBuf_respond ..
    | decode F slice => exact sameView_respond h _
    | encode m =>
      cases hm : m.constructible p.codec with
      | false =>
        rw [perform_encode_refused hm, perform_encode_refused hm]
        rfl
      | true =>
        rw [perform_encode hm, perform_encode hm]
        exact sameView_respond h _
    | _ => simp [NeedsReader, IsFeedTo, Txn.family] at ht

end Machine

/-- Settles O49: the other buffer stands by `perform_buf_other`; the other sizes are not read, and then a request
looks the same by `sameView_perform`. -/
theorem directionsAreIsolated : Obligations.DirectionsAreIsolated := by
  refine ⟨fun p s s' t G h hG => perform_buf_other (request_next (stepWith_post p s t ▸ h)).2 hG,
    fun p cmd rep s₁ s₂ t hsizes hbuf => ?_⟩
  rw [stepWith_withSizes s₂ hsizes, stepWith_post, stepWith_post]
  cases hp : p.wellFormed t.family with
  | false =>
    rw [request_illFormed hp, request_illFormed hp]
    rfl
  | true =>
    rw [request_of_wellFormed hp, request_of_wellFormed hp]
    exact sameView_perform hbuf

/-! The invariant. -/

section

variable {p : Params} {F : Family}

theorem Machine.State.respOk_respond {s : StateOf p} {r : Response p.codec.debugMaxLen}
    (h : responseOk p F r = true) : (s.respond r).respOk p = true := by
  cases F <;> simp [State.respOk, h]

/-- A transaction that ends with a legal response keeps the invariant where it leaves the buffers alone, or gives one
Reader a content within its `CAP`. -/
theorem Machine.State.inv_respond {s : StateOf p} {r : Response p.codec.debugMaxLen} (hs : s.Inv p = true)
    (hr : responseOk p F r = true) : (s.respond r).Inv p = true := by
  obtain ⟨hbufs, -, -⟩ := State.inv_iff.1 hs
  exact State.inv_iff.2 ⟨fun G b hb => hbufs G b (by rwa [State.respond_buf] at hb), rfl, State.respOk_respond hr⟩

theorem Machine.State.inv_setBuf_respond {s : StateOf p} {b : Bytes} {r : Response p.codec.debugMaxLen}
    (hs : s.Inv p = true) (hp : p.wellFormed F = true) (hb : b.length ≤ (p.sizes F).cap)
    (hr : responseOk p F r = true) : ((s.setBuf F b).respond r).Inv p = true := by
  obtain ⟨hbufs, -, -⟩ := State.inv_iff.1 hs
  refine State.inv_iff.2 ⟨fun G c hc => ?_, rfl, State.respOk_respond hr⟩
  rw [State.respond_buf] at hc
  by_cases hG : G = F
  · subst hG
    rw [State.setBuf_buf_self] at hc
    cases hc
    exact ⟨hp, hb⟩
  · rw [State.setBuf_buf_other s b hG] at hc
    exact hbufs G c hc

/-- The Debug reasons are the Report family's (R33). -/
theorem decode_malformed_report {cfg : Codec} {s : Bytes} {r : Reason} (h : decode cfg F s = .malformed r)
    (hr : r ≠ .badTag) : F = .report := by
  rcases decode_malformed h with ⟨htag, -⟩ | ⟨-, -, hF, -⟩
  · exact absurd htag hr
  · exact hF

theorem faultOk_malformed {s : Bytes} {r : Reason} {k : Nat} (h : decode p.codec F s = .malformed r)
    (hk : k < (p.sizes F).outqCap) : faultOk p F { kind := .malformed, reason := some r, discarded := k } = true := by
  cases r with
  | badTag => simpa [faultOk] using hk
  | badLength => simpa [faultOk] using ⟨decode_malformed_report h nofun, hk⟩
  | badUtf8 => simpa [faultOk] using ⟨decode_malformed_report h nofun, hk⟩

theorem outcomeOk_decode (cfg : Codec) (F : Family) (s : Bytes) : outcomeOk cfg F (decode cfg F s) = true := by
  cases h : decode cfg F s with
  | incomplete => rfl
  | malformed r =>
    cases r with
    | badTag => rfl
    | badLength => simpa [outcomeOk] using decode_malformed_report h nofun
    | badUtf8 => simpa [outcomeOk] using decode_malformed_report h nofun
  | decoded m n =>
    simp [outcomeOk, decode_decoded_family h, decode_decoded_constructible h, decode_decoded_wireSize h,
      decode_decoded_le_maxWire h]

/-- The parsed messages are legal under any bound up to `OUTQ_CAP`. -/
theorem messagesOk_parseUpTo {k : Nat} (S : Bytes) (hk : k ≤ (p.sizes F).outqCap) :
    messagesOk p F (parseUpTo p.codec F k S).1 = true := by
  have hlen := (parseUpTo_length p.codec F k S).trans hk
  simpa [messagesOk, hlen] using fun m => parseUpTo_messages (k := k) (S := S) m

theorem responseOk_feedAnswer {k : Nat} (S : Bytes) (hk : k ≤ (p.sizes F).outqCap) : responseOk p F
    (feedAnswer p.codec F k (parseUpTo p.codec F k S).1 (parseUpTo p.codec F k S).2) = true := by
  rcases parseUpTo_ends p.codec F k S with hfull | ⟨hlt, hinc | ⟨r, hmal⟩⟩
  · rw [feedAnswer_full hfull]
    exact messagesOk_parseUpTo S hk
  · rw [feedAnswer_incomplete hinc]
    exact messagesOk_parseUpTo S hk
  · rw [feedAnswer_malformed hlt hmal]
    exact faultOk_malformed hmal (hlt.trans_le hk)

theorem responseOk_frame {m : InstrOf p} (hm : m.constructible p.codec = true) :
    responseOk p m.family (.frame (encode p.codec m)) = true := by
  simp [responseOk, encode_length hm, m.wireSize_pos, m.wireSize_le_maxWire p.codec]

end

/-- A feed keeps the invariant: what it leaves is no longer than the buffer with the batch behind it. -/
theorem Machine.State.inv_feedCore {p : Params} {F : Family} {s s' : StateOf p} {t : TxnOf p} {input : Bytes}
    {bound : Nat} (hs : s.Inv p = true) (hp : p.wellFormed F = true) (ht : FeedsAs p F t input bound)
    (h : feedCore p F input bound s = .next s') : s'.Inv p = true := by
  obtain ⟨b, -, -, hb, -⟩ := feedCore_next h
  rcases Nat.lt_or_ge (p.sizes F).cap (b.length + input.length) with hfull | hfits
  · rw [feedCore_full bound hb hfull] at h
    cases h
    exact State.inv_respond hs (F := F) rfl
  · rw [feedCore_fits bound hb hfits, feedLoop_eq (b := b ++ input) (by simp)] at h
    cases h
    have hrest := parseUpTo_length_add_rest_le p.codec F bound (b ++ input)
    simp only [State.setBuf_clearOut, State.setBuf_setBuf, State.respond_clearOut, State.clearOut_outq,
      List.length_nil, Nat.zero_add, List.nil_append]
    refine State.inv_setBuf_respond hs hp ?_ (responseOk_feedAnswer _ (ht.bound_pos hp).2)
    rw [List.length_append] at hrest
    omega

/-- Every request keeps the invariant. -/
theorem Machine.State.inv_request {p : Params} {s s' : StateOf p} {t : TxnOf p} (hs : s.Inv p = true)
    (h : request p t s = .next s') : s'.Inv p = true := by
  obtain ⟨hp, hnext⟩ := request_next h
  obtain ⟨hbufs, -, -⟩ := State.inv_iff.1 hs
  rcases perform_next hnext with ⟨F, rfl, rfl⟩ | ⟨F, b, rfl, -, rfl⟩ | ⟨F, input, bound, ht, hc⟩ |
    ⟨F, n, b, rfl, hb, rfl⟩ | ⟨F, slice, rfl, rfl⟩ | ⟨m, rfl, hm, rfl⟩
  · exact State.inv_setBuf_respond hs hp (Nat.zero_le _) rfl
  · exact State.inv_setBuf_respond hs hp (Nat.zero_le _) rfl
  · exact State.inv_feedCore hs (ht.family ▸ hp) ht hc
  · obtain ⟨-, hcap⟩ := hbufs F b hb
    exact State.inv_setBuf_respond hs hp (drain_length_le _ hcap)
      (by simpa [responseOk] using .inr hcap)
  · exact State.inv_respond hs (outcomeOk_decode ..)
  · exact State.inv_respond hs (responseOk_frame hm)

/-- Settles O52: a step is idle or a request, and the invariant does not speak of pending requests. -/
theorem stepKeepsTheInvariant : Obligations.StepKeepsTheInvariant := by
  have hstep : ∀ (p : Params) (s t : StateOf p), s.Inv p = true → stepWith p s = .next t → t.Inv p = true := by
    intro p s t hs h
    rcases stepWith_next h with ⟨-, rfl⟩ | ⟨u, rest, -, hreq⟩
    · exact hs
    · exact State.inv_request (s := { s with pending := rest }) hs hreq
  exact ⟨hstep, hstep built⟩

/-- Settles O53: the empty buffers are within any `CAP`, and there is no response yet. -/
theorem resetMeetsTheInvariant : Obligations.ResetMeetsTheInvariant := by
  have hcleared : ∀ p : Params, p.wellFormed .command = true → p.wellFormed .report = true →
      State.Inv p State.cleared = true := fun p hcmd hrep => by
    simp [State.Inv, State.cleared, State.respOk, readerOk, hcmd, hrep]
  exact ⟨hcleared built (by decide) (by decide), hcleared, fun p => rfl⟩

/-- Settles O54: the fields of the reset state, and two runs of NEW. -/
theorem resetLeavesEmptyBuffers : Obligations.ResetLeavesEmptyBuffers := by
  refine ⟨fun F => by cases F <;> rfl, rfl, rfl, rfl, fun n F => by cases F <;> rfl, fun p hcmd hrep => ?_⟩
  rw [runTxns_cons (request_of_wellFormed (t := .new .command) hcmd),
    runTxns_cons (request_of_wellFormed (t := .new .report) hrep)]
  rfl

/-! The transport (R238, R260). -/

namespace Machine.Sink

/-- What is on the wire and what is left of the frame. -/
theorem flush_wire_append_unsent (grants : List Nat) (k : Sink) :
    (flush grants k).wire ++ (flush grants k).unsent = k.wire ++ k.unsent := by
  induction grants generalizing k with
  | nil => rfl
  | cons accepts more ih =>
    rw [flush, ih, attempt, List.append_assoc, List.take_append_drop]

theorem send_wire {jobs : List (Bytes × List Nat)} {k k' : Sink} (hk : k.unsent = []) (h : send jobs k = some k') :
    k'.wire = k.wire ++ (jobs.map Prod.fst).flatten ∧ k'.unsent = [] := by
  induction jobs generalizing k with
  | nil =>
    cases h
    exact ⟨by simp, hk⟩
  | cons job jobs ih =>
    obtain ⟨frame, grants⟩ := job
    rw [send] at h
    split at h
    · next hflushed =>
      have hwire := flush_wire_append_unsent grants { k with unsent := frame }
      rw [hflushed, List.append_nil] at hwire
      obtain ⟨hall, hnil⟩ := ih hflushed h
      refine ⟨?_, hnil⟩
      rw [hall, hwire, List.map_cons, List.flatten_cons, List.append_assoc]
    · cases h

/-- Attempts that accept nothing change nothing. -/
theorem flush_replicate_zero (tries : Nat) (k : Sink) : flush (List.replicate tries 0) k = k := by
  induction tries with
  | zero => rfl
  | succ n ih => simpa [List.replicate_succ, flush, attempt] using ih

end Machine.Sink

/-- Settles O60: the wire by `send_wire` and `flush_wire_append_unsent`; after attempts that accept nothing the whole
frame is left. -/
theorem framesReachTheWireWhole : Obligations.FramesReachTheWireWhole := by
  refine ⟨fun jobs k k' => Sink.send_wire, fun frame grants k => Sink.flush_wire_append_unsent ..,
    fun frame tries more k hne => ?_⟩
  simp [Sink.send, Sink.flush_replicate_zero, hne]

end Sys2Proof

/-! SUPPORT. Streams: the greedy parse of a stream and of its parts, the fragments of a stream (43_reader.md R194), the
encoded messages end to end (40_codec.md R101), and the loops of a host (43_reader.md R190, 70_reset_and_hazards.md
R256). -/

namespace Sys2Proof

open Machine

/-! The greedy parse of a whole stream. -/

section

variable {cfg : Codec} {F : Family} {S : Bytes}

/-- Every frame has a byte, so more room than bytes changes nothing. -/
theorem parseUpTo_congr {j k : Nat} (hj : S.length ≤ j) (hk : S.length ≤ k) :
    parseUpTo cfg F j S = parseUpTo cfg F k S := by
  induction j generalizing S k with
  | zero =>
    obtain rfl := List.eq_nil_of_length_eq_zero (Nat.le_zero.1 hj)
    rw [parseUpTo_incomplete _ (decode_nil cfg F), parseUpTo_incomplete _ (decode_nil cfg F)]
  | succ j ih =>
    cases hd : decode cfg F S with
    | incomplete => rw [parseUpTo_incomplete _ hd, parseUpTo_incomplete _ hd]
    | malformed r => rw [parseUpTo_malformed _ hd, parseUpTo_malformed _ hd]
    | decoded m n =>
      have hpos := decode_decoded_pos hd
      have hle := decode_decoded_le_length hd
      obtain ⟨i, rfl⟩ : ∃ i, k = i + 1 := ⟨k - 1, by omega⟩
      rw [parseUpTo_decoded j hd, parseUpTo_decoded i hd,
        ih (by rw [List.length_drop]; omega) (k := i) (by rw [List.length_drop]; omega)]

theorem parseAll_eq_parseUpTo {k : Nat} (h : S.length ≤ k) : parseAll cfg F S = parseUpTo cfg F k S :=
  parseUpTo_congr le_rfl h

theorem parseAll_decoded {m : Instr cfg.debugMaxLen} {n : Nat} (h : decode cfg F S = .decoded m n) :
    parseAll cfg F S = (m :: (parseAll cfg F (S.drop n)).1, (parseAll cfg F (S.drop n)).2) := by
  rw [parseAll_eq_parseUpTo (Nat.le_succ _), parseUpTo_decoded _ h,
    parseAll_eq_parseUpTo (S := S.drop n) (k := S.length) (by rw [List.length_drop]; exact Nat.sub_le ..)]

/-- No whole frame stands at the front of what the parse leaves. -/
theorem parseAll_settled (cfg : Codec) (F : Family) (S : Bytes) : Settled cfg F (parseAll cfg F S).2 := by
  have hlen := parseUpTo_length_add_rest_le cfg F (S.length + 1) S
  rw [parseAll_eq_parseUpTo (k := S.length + 1) (Nat.le_succ _)]
  exact parseUpTo_settled cfg F _ S (by omega)

theorem Settled.parseAll_eq (h : Settled cfg F S) : parseAll cfg F S = ([], S) := by
  rcases h with hinc | ⟨r, hmal⟩
  · exact parseUpTo_incomplete _ hinc
  · exact parseUpTo_malformed _ hmal

/-- The parse of a stream goes on behind the parse of its front, whose frames decode as before (R97). -/
theorem parseAll_append (k : Nat) (T : Bytes) : parseAll cfg F (S ++ T) =
    ((parseUpTo cfg F k S).1 ++ (parseAll cfg F ((parseUpTo cfg F k S).2 ++ T)).1,
      (parseAll cfg F ((parseUpTo cfg F k S).2 ++ T)).2) := by
  induction k generalizing S with
  | zero => rfl
  | succ k ih =>
    cases hd : decode cfg F S with
    | incomplete => rw [parseUpTo_incomplete _ hd]; rfl
    | malformed r => rw [parseUpTo_malformed _ hd]; rfl
    | decoded m n =>
      rw [parseAll_decoded (decode_append_decoded hd T), List.drop_append_of_le_length (decode_decoded_le_length hd),
        ih, parseUpTo_decoded k hd, List.cons_append]

/-- What the parse of the rest leaves, the parse of the whole leaves. -/
theorem parseAll_rest (k : Nat) : (parseAll cfg F S).2 = (parseAll cfg F (parseUpTo cfg F k S).2).2 := by
  simpa using congrArg Prod.snd (parseAll_append (cfg := cfg) (F := F) (S := S) k [])

/-- The frames of messages, one after the other, are parsed into these messages (R101). -/
theorem parseAll_flatMap_encode (hcfg : cfg.wellFormed = true) {ms : List (Instr cfg.debugMaxLen)}
    (hms : ∀ m ∈ ms, m.family = F ∧ m.constructible cfg = true) :
    parseAll cfg F (ms.flatMap (encode cfg)) = (ms, []) := by
  induction ms with
  | nil => rfl
  | cons m ms ih =>
    obtain ⟨⟨rfl, hm⟩, hms⟩ := List.forall_mem_cons.1 hms
    have hframe := decode_encode hcfg hm (ms.flatMap (encode cfg))
    rw [List.flatMap_cons, parseAll_decoded hframe, ← encode_length hm, List.drop_left, ih hms]

end

/-! Fragments (R194). -/

section

variable {p : Params} {F : Family} {s : StateOf p}

/-- One call of `feedAll`. -/
theorem feedAll_cons_eq_some {f : Bytes} {fs : List Bytes} {outs : List (InstrOf p)} {s' : StateOf p} :
    feedAll p F (f :: fs) s = some (outs, s') ↔
      ∃ u out more, stepWith p (s.post (.feed F f)) = .next u ∧ u.resp = some (.messages out) ∧
        out.length < (p.sizes F).outqCap ∧ feedAll p F fs u = some (more, s') ∧ outs = out ++ more := by
  constructor
  · intro h
    rw [feedAll] at h
    repeat' split at h
    all_goals cases h
    exact ⟨_, _, _, ‹_›, ‹_›, ‹_›, ‹_›, rfl⟩
  · rintro ⟨u, out, more, hstep, hresp, hlt, hmore, rfl⟩
    simp [feedAll, hstep, hresp, hlt, hmore]

/-- A FEED that returns fewer messages than `OUTQ_CAP` drained the buffer up to bytes that wait. -/
theorem feed_messages_lt {b input : Bytes} {u : StateOf p} {out : List (InstrOf p)} (hb : s.buf F = some b)
    (hp : p.wellFormed F = true) (hstep : stepWith p (s.post (.feed F input)) = .next u)
    (hresp : u.resp = some (.messages out)) (hlt : out.length < (p.sizes F).outqCap) :
    ∃ rest, parseUpTo p.codec F (p.sizes F).outqCap (b ++ input) = (out, rest) ∧ u.buf F = some rest ∧
      decode p.codec F rest = .incomplete := by
  rcases Nat.lt_or_ge (p.sizes F).cap (b.length + input.length) with hfull | hfits
  · rw [stepWith_post_full (.feed F input) hb hp hfull] at hstep
    cases hstep
    cases hresp
  · rw [stepWith_post_fits (.feed F input) hb hp hfits] at hstep
    cases hstep
    have hanswer := Option.some.inj hresp
    obtain rfl := feedAnswer_eq_messages hanswer
    refine ⟨_, rfl, by simp, ?_⟩
    rcases parseUpTo_settled _ _ _ _ hlt with hinc | ⟨r, hmal⟩
    · exact hinc
    · rw [feedAnswer_malformed hlt hmal] at hanswer
      cases hanswer

/-- Fed behind bytes that wait, the fragments give the parse of those bytes and the fragments. -/
theorem feedAll_eq_parseAll {fragments : List Bytes} {b : Bytes} {outs : List (InstrOf p)} {s' : StateOf p}
    (hb : s.buf F = some b) (hinc : decode p.codec F b = .incomplete) (hp : p.wellFormed F = true)
    (h : feedAll p F fragments s = some (outs, s')) :
    outs = (parseAll p.codec F (b ++ fragments.flatten)).1 ∧
      s'.buf F = some (parseAll p.codec F (b ++ fragments.flatten)).2 := by
  induction fragments generalizing s b outs with
  | nil =>
    cases h
    have hrest : parseAll p.codec F b = ([], b) := Settled.parseAll_eq (.inl hinc)
    simp [hrest, hb]
  | cons f fs ih =>
    obtain ⟨u, out, more, hstep, hresp, hlt, hmore, rfl⟩ := feedAll_cons_eq_some.1 h
    obtain ⟨rest, hparse, hrest, hwaits⟩ := feed_messages_lt hb hp hstep hresp hlt
    obtain ⟨rfl, hbuf⟩ := ih hrest hwaits hmore
    rw [List.flatten_cons, ← List.append_assoc, parseAll_append (S := b ++ f) (p.sizes F).outqCap, hparse]
    exact ⟨rfl, hbuf⟩

/-- Fed frame by frame, every message is returned by the FEED of its frame. -/
theorem feedAll_map_encode {ms : List (InstrOf p)} (hb : s.buf F = some []) (hp : p.wellFormed F = true)
    (hms : ∀ m ∈ ms, m.family = F ∧ m.constructible p.codec = true) (hbound : 2 ≤ (p.sizes F).outqCap) :
    ∃ s', feedAll p F (ms.map (encode p.codec)) s = some (ms, s') := by
  induction ms generalizing s with
  | nil => exact ⟨s, rfl⟩
  | cons m ms ih =>
    obtain ⟨⟨rfl, hm⟩, hms⟩ := List.forall_mem_cons.1 hms
    obtain ⟨-, -, hcfg⟩ := Params.wellFormed_iff.1 hp
    have hframe := decode_encode hcfg hm []
    rw [List.append_nil, ← encode_length hm] at hframe
    have hstep := stepWith_post_feed_frame (b := []) hb hp hframe
    obtain ⟨s', hmore⟩ := ih (s := (s.setBuf m.family []).respond (.messages [m])) (by simp) hms
    exact ⟨s', feedAll_cons_eq_some.2 ⟨_, [m], ms, hstep, rfl, hbound, hmore, rfl⟩⟩

/-! The loops of a host (R190, R256). -/

/-- An empty FEED is the parse of the buffer (R187). -/
theorem stepWith_post_feed_nil {b : Bytes} (hb : s.buf F = some b) (hp : p.wellFormed F = true)
    (hcap : b.length ≤ (p.sizes F).cap) : stepWith p (s.post (.feed F [])) =
      .next ((s.setBuf F (parseUpTo p.codec F (p.sizes F).outqCap b).2).respond
        (feedAnswer p.codec F (p.sizes F).outqCap (parseUpTo p.codec F (p.sizes F).outqCap b).1
          (parseUpTo p.codec F (p.sizes F).outqCap b).2)) := by
  simpa using stepWith_post_fits (.feed F []) hb hp hcap

/-- Every call of the drain loop but the last takes a byte from the buffer, so the loop ends. -/
theorem drainLoop_ends {k : Nat} {b : Bytes} (hb : s.buf F = some b) (hp : p.wellFormed F = true)
    (hcap : b.length ≤ (p.sizes F).cap) (hk : b.length < k) :
    ∃ s', drainLoop p F k s = some s' ∧ s'.buf F = some (parseAll p.codec F b).2 := by
  induction k generalizing s b with
  | zero => cases hk
  | succ k ih =>
    have hstep := stepWith_post_feed_nil hb hp hcap
    have hends := parseUpTo_ends p.codec F (p.sizes F).outqCap b
    have hlen := parseUpTo_length_add_rest_le p.codec F (p.sizes F).outqCap b
    obtain ⟨hbound, -⟩ := (FeedsAs.feed (p := p) F []).bound_pos hp
    rw [parseAll_rest (p.sizes F).outqCap]
    generalize parseUpTo p.codec F (p.sizes F).outqCap b = parsed at hstep hends hlen ⊢
    obtain ⟨ms, rest⟩ := parsed
    dsimp only at hstep hends hlen
    rcases hends with hfull | ⟨hlt, hinc | ⟨r, hmal⟩⟩
    · rw [feedAnswer_full hfull] at hstep
      obtain ⟨s', hloop, hbuf⟩ := ih (s := (s.setBuf F rest).respond (.messages ms)) (b := rest) (by simp)
        (by omega) (by omega)
      exact ⟨s', by simp [drainLoop, hstep, hfull, hloop], hbuf⟩
    · rw [feedAnswer_incomplete hinc] at hstep
      refine ⟨(s.setBuf F rest).respond (.messages ms), by simp [drainLoop, hstep, hlt], ?_⟩
      rw [Settled.parseAll_eq (.inl hinc), State.respond_buf, State.setBuf_buf_self]
    · rw [feedAnswer_malformed hlt hmal] at hstep
      refine ⟨(s.setBuf F rest).respond (.fault _), by simp [drainLoop, hstep]; rfl, ?_⟩
      rw [Settled.parseAll_eq (.inr ⟨r, hmal⟩), State.respond_buf, State.setBuf_buf_self]

/-- Every round of the drop-one policy but the last takes a byte from the buffer: a Malformed front has one. -/
theorem dropOne_ends {k : Nat} {b : Bytes} (hb : s.buf F = some b) (hp : p.wellFormed F = true)
    (hcap : b.length ≤ (p.sizes F).cap) (hk : b.length < k) :
    ∃ s' ms, dropOne p F k s = some s' ∧ s'.resp = some (.messages ms) := by
  induction k generalizing s b with
  | zero => cases hk
  | succ k ih =>
    have hstep := stepWith_post_feed_nil hb hp hcap
    have hends := parseUpTo_ends p.codec F (p.sizes F).outqCap b
    have hlen := parseUpTo_length_add_rest_le p.codec F (p.sizes F).outqCap b
    generalize parseUpTo p.codec F (p.sizes F).outqCap b = parsed at hstep hends hlen
    obtain ⟨ms, rest⟩ := parsed
    dsimp only at hstep hends hlen
    rcases hends with hfull | ⟨hlt, hinc | ⟨r, hmal⟩⟩
    · rw [feedAnswer_full hfull] at hstep
      exact ⟨(s.setBuf F rest).respond (.messages ms), ms, by simp [dropOne, hstep], rfl⟩
    · rw [feedAnswer_incomplete hinc] at hstep
      exact ⟨(s.setBuf F rest).respond (.messages ms), ms, by simp [dropOne, hstep], rfl⟩
    · rw [feedAnswer_malformed hlt hmal] at hstep
      have hpos : 0 < rest.length := List.length_pos_of_ne_nil fun hnil => by
        rw [hnil, decode_nil] at hmal
        cases hmal
      obtain ⟨u, info, hfault, hbuf, hresp⟩ : ∃ u info, stepWith p (s.post (.feed F [])) = .next u ∧
          u.buf F = some rest ∧ u.resp = some (.fault info) := ⟨_, _, hstep, by simp, rfl⟩
      have hdiscard := stepWith_post_discard 1 hbuf hp
      obtain ⟨s', out, hloop, hmessages⟩ := ih (s := (u.setBuf F (rest.drop (min 1 rest.length))).respond
        (.dropped (min 1 rest.length))) (b := rest.drop (min 1 rest.length)) (by simp)
        (by rw [List.length_drop]; omega) (by rw [List.length_drop]; omega)
      exact ⟨s', out, by simpa [dropOne, hfault, hresp, hdiscard] using hloop, hmessages⟩

end

/-- Settles O42: an empty buffer waits. -/
theorem fragmentationDoesNotMatter : Obligations.FragmentationDoesNotMatter := fun p _ _ F _ _ hb hp h =>
  feedAll_eq_parseAll hb (decode_nil p.codec F) hp h

/-- Settles O58: the fragments are parsed as their stream, which is parsed into the messages; frame by frame by
`feedAll_map_encode`. -/
theorem encodedMessagesAreDelivered : Obligations.EncodedMessagesAreDelivered := by
  intro p s F ms hb hp hms
  refine ⟨fun fragments outs s' hstream h => ?_, feedAll_map_encode hb hp hms⟩
  obtain ⟨-, -, hcfg⟩ := Params.wellFormed_iff.1 hp
  obtain ⟨rfl, hbuf⟩ := fragmentationDoesNotMatter p s s' F fragments outs hb hp h
  rw [hstream, parseAll_flatMap_encode hcfg hms] at hbuf ⊢
  exact ⟨rfl, hbuf⟩

/-- Settles O56: `drainLoop_ends` with one call more than there are bytes. -/
theorem drainLoopEnds : Obligations.DrainLoopEnds := by
  intro p s F b hb hp hcap
  obtain ⟨s', hloop, hbuf⟩ := drainLoop_ends hb hp hcap (Nat.lt_succ_self _)
  exact ⟨s', hloop, hbuf, parseAll_settled p.codec F b⟩

/-- Settles O57: `dropOne_ends` with one round more than there are bytes. -/
theorem dropOneResynchronises : Obligations.DropOneResynchronises := fun _ _ _ _ hb hp hcap =>
  dropOne_ends hb hp hcap (Nat.lt_succ_self _)

end Sys2Proof
